-- ==== Sys2Proof/Word.lean ====
section
/-! DEFINITION. The widths and word types of the divider core (rules R5, R6 and R7 of 00_scope.md).
A `w`-bit value is a `BitVec w`: bit 0 is the least significant bit, `+`, `-` and `<<<` are reduced modulo `2^w`. -/

namespace Sys2Proof

/-- Rule R6: the number of binary digits of `x`, with `bitlength 0 = 0`. -/
def bitlength (x : Nat) : Nat := if x = 0 then 0 else Nat.log2 x + 1

/-- Rule R6: the width of the iteration counter `i`. -/
def IW (N : Nat) : Nat := max 1 (bitlength (N - 1))

/-- Rule R6: the width of the operation counters `cnt` and `cnt_r`. -/
def CW (N : Nat) : Nat := bitlength (N + 1)

/-- An operand, magnitude or result word (rule R6). -/
abbrev Word (N : Nat) := BitVec N

/-- The accumulator's word, one bit wider than an operand (rule R6, conflict C1). -/
abbrev Acc (N : Nat) := BitVec (N + 1)

end Sys2Proof
end

