-- ==== Sys2Proof/Config.lean ====
section
/-! DEFINITION. What is fixed when a machine is built, and the free values.
The width `N` itself is a parameter of the hardware (rule R5 of 00_scope.md, D5 OPEN): a State carries its own `N`
(log 1), and only the width of the reset state is named here. -/

namespace Sys2Proof

/-- The core's two units (rules R2 and R210). -/
inductive UnitId where
  /-- `restoring_divider` -/
  | rd
  /-- `non_restoring_divider` -/
  | nrd
  deriving DecidableEq, Repr

/-- The seven registers whose value after a reset edge is unspecified (rule R32). -/
inductive FreeReg where
  | A | Q | M | i | cnt | sq | sr
  deriving DecidableEq, Repr

namespace Config

/-- DESIGN CHOICE (log 1): the width of the machine that `State.reset` names. The spec fixes none (D5 OPEN); its own
vectors use 4. Statements about the machine hold for every width a state carries. -/
def resetWidth : Nat := 4

/-- The free draw of rule R32 (log 3): what register `r` of unit `u` holds, at width `w`, after the unit's `k`-th reset
edge. It has no value that a proof could see. -/
opaque freeDraw (u : UnitId) (r : FreeReg) (k : Nat) (w : Nat) : BitVec w

end Config

end Sys2Proof
end

