-- ==== Sys2Proof/Syntax.lean ====
section
/-! DEFINITION. The instructions of the core: the twelve rows of the control table (rule R77 of 30_encoding.md).
A row's arguments are its operands and its don't-care bits. `START` has two data operands (rule R76), given as the
unsigned numbers of the words on the ports (rule R7; log 7). The don't-care bits of `cv` are kept, so that a control
vector can be read back from an instruction; no meaning depends on them. -/

namespace Sys2Proof

/-- The phase held in the 2-bit register `ph` (rule R21). -/
inductive Phase where
  | idle | iter | corr | fix
  deriving DecidableEq, Repr

inductive Instr where
  /-- `1xxx`: hardware reset (rule R230) -/
  | rdReset (ph : Phase) (start : Bool)
  /-- `0000`: idle, hold (rule R100) -/
  | rdIdle
  /-- `0001`: accept an operation (rule R101) -/
  | rdStart (dividend divisor : Nat)
  /-- `001x`: one restoring iteration (rule R102) -/
  | rdIter (start : Bool)
  /-- `010x`: reserved phase (rule R103) -/
  | rdRsv (start : Bool)
  /-- `011x`: sign correction, write results (rule R104) -/
  | rdFix (start : Bool)
  /-- `1xxx`: hardware reset (rule R230) -/
  | nrdReset (ph : Phase) (start : Bool)
  /-- `0000`: idle, hold (rule R130) -/
  | nrdIdle
  /-- `0001`: accept an operation (rule R131) -/
  | nrdStart (dividend divisor : Nat)
  /-- `001x`: one non-restoring iteration (rule R132) -/
  | nrdIter (start : Bool)
  /-- `010x`: final correction (rule R133) -/
  | nrdCorr (start : Bool)
  /-- `011x`: sign correction, write results (rule R134) -/
  | nrdFix (start : Bool)
  deriving DecidableEq, Repr

/-- The unit a row belongs to (rule R77). -/
def Instr.unit : Instr → UnitId
  | .rdReset _ _ | .rdIdle | .rdStart _ _ | .rdIter _ | .rdRsv _ | .rdFix _ => .rd
  | .nrdReset _ _ | .nrdIdle | .nrdStart _ _ | .nrdIter _ | .nrdCorr _ | .nrdFix _ => .nrd

end Sys2Proof
end

