-- ==== Sys2Proof/WellFormed.lean ====
section
/-! DEFINITION. Which instructions a machine of width `N` can meet: the width is legal (rule R5) and the data operands
of `START` are `N`-bit words (rules R29 and R80). -/

namespace Sys2Proof

/-- Rule R5: a unit is built with `N >= 2`. -/
def widthOk (N : Nat) : Bool := decide (2 ≤ N)

/-- Rule R7: the number `w` is a word of width `N`. -/
def fitsWord (N w : Nat) : Bool := decide (w < 2 ^ N)

def Instr.operandsFit (N : Nat) : Instr → Bool
  | .rdStart dividend divisor => fitsWord N dividend && fitsWord N divisor
  | .nrdStart dividend divisor => fitsWord N dividend && fitsWord N divisor
  | .rdReset _ _ | .rdIdle | .rdIter _ | .rdRsv _ | .rdFix _ => true
  | .nrdReset _ _ | .nrdIdle | .nrdIter _ | .nrdCorr _ | .nrdFix _ => true

def Instr.wellFormed (N : Nat) (i : Instr) : Bool := widthOk N && i.operandsFit N

end Sys2Proof
end

