-- ==== Sys2Proof/Decode.lean ====
section
/-! DEFINITION. The control vector, the control table, decoding and encoding (rules R21, R75 to R80 of 30_encoding.md).
The spec's instruction word is the control vector `cv = (rst, ph[1], ph[0], start)` of one unit, with the two operand
ports beside it as data of the START rows (rule R76). -/

namespace Sys2Proof

/-- Rule R21: the code of a phase in `ph`. -/
def Phase.code : Phase → BitVec 2
  | .idle => 0b00#2
  | .iter => 0b01#2
  | .corr => 0b10#2
  | .fix => 0b11#2

/-- Rule R21: the phase a 2-bit code stands for. -/
def Phase.ofCode (c : BitVec 2) : Phase :=
  if c = 0b00#2 then .idle else if c = 0b01#2 then .iter else if c = 0b10#2 then .corr else .fix

/-- Rule R76: `cv`, with `rst` as bit 3 and `start` as bit 0. -/
def controlVector (rst : Bool) (ph : Phase) (start : Bool) : BitVec 4 :=
  (BitVec.ofBool rst ++ ph.code ++ BitVec.ofBool start : BitVec (1 + 2 + 1))

/-- What selects and feeds a row at an edge (rule R76): the unit's identity, its control vector, and the two data words
on its operand ports, as unsigned numbers. -/
structure RowWord where
  unit : UnitId
  cv : BitVec 4
  dividend : Nat
  divisor : Nat
  deriving DecidableEq, Repr

/-- Rules R76 and R77: the row a unit applies. Reset has priority; the other rows are told apart by `ph` and `start`. -/
def decode (w : RowWord) : Instr :=
  let ph := Phase.ofCode (w.cv.extractLsb' 1 2)
  let start := w.cv.getLsbD 0
  match w.unit, w.cv.getLsbD 3, ph, start with
  | .rd, true, ph, start => .rdReset ph start
  | .rd, false, .idle, false => .rdIdle
  | .rd, false, .idle, true => .rdStart w.dividend w.divisor
  | .rd, false, .iter, start => .rdIter start
  | .rd, false, .corr, start => .rdRsv start
  | .rd, false, .fix, start => .rdFix start
  | .nrd, true, ph, start => .nrdReset ph start
  | .nrd, false, .idle, false => .nrdIdle
  | .nrd, false, .idle, true => .nrdStart w.dividend w.divisor
  | .nrd, false, .iter, start => .nrdIter start
  | .nrd, false, .corr, start => .nrdCorr start
  | .nrd, false, .fix, start => .nrdFix start

/-- The encoder: an instruction's unit, control vector and data words. The data words of a row that reads none are 0. -/
def encode : Instr → RowWord
  | .rdReset ph start => ⟨.rd, controlVector true ph start, 0, 0⟩
  | .rdIdle => ⟨.rd, controlVector false .idle false, 0, 0⟩
  | .rdStart dividend divisor => ⟨.rd, controlVector false .idle true, dividend, divisor⟩
  | .rdIter start => ⟨.rd, controlVector false .iter start, 0, 0⟩
  | .rdRsv start => ⟨.rd, controlVector false .corr start, 0, 0⟩
  | .rdFix start => ⟨.rd, controlVector false .fix start, 0, 0⟩
  | .nrdReset ph start => ⟨.nrd, controlVector true ph start, 0, 0⟩
  | .nrdIdle => ⟨.nrd, controlVector false .idle false, 0, 0⟩
  | .nrdStart dividend divisor => ⟨.nrd, controlVector false .idle true, dividend, divisor⟩
  | .nrdIter start => ⟨.nrd, controlVector false .iter start, 0, 0⟩
  | .nrdCorr start => ⟨.nrd, controlVector false .corr start, 0, 0⟩
  | .nrdFix start => ⟨.nrd, controlVector false .fix start, 0, 0⟩

/-! ## The control table as the spec prints it (rule R77) -/

/-- The names of the twelve rows. -/
inductive RowName where
  | rdReset | rdIdle | rdStart | rdIter | rdRsv | rdFix
  | nrdReset | nrdIdle | nrdStart | nrdIter | nrdCorr | nrdFix
  deriving DecidableEq, Repr

/-- One line of rule R77's table: a row matches when `cv & mask = patt`. -/
structure Row where
  name : RowName
  unit : UnitId
  patt : BitVec 4
  mask : BitVec 4
  deriving DecidableEq, Repr

/-- Rule R77, line by line, in table order. -/
def controlTable : List Row :=
  [ ⟨.rdReset, .rd, 0b1000#4, 0b1000#4⟩,
    ⟨.rdIdle, .rd, 0b0000#4, 0b1111#4⟩,
    ⟨.rdStart, .rd, 0b0001#4, 0b1111#4⟩,
    ⟨.rdIter, .rd, 0b0010#4, 0b1110#4⟩,
    ⟨.rdRsv, .rd, 0b0100#4, 0b1110#4⟩,
    ⟨.rdFix, .rd, 0b0110#4, 0b1110#4⟩,
    ⟨.nrdReset, .nrd, 0b1000#4, 0b1000#4⟩,
    ⟨.nrdIdle, .nrd, 0b0000#4, 0b1111#4⟩,
    ⟨.nrdStart, .nrd, 0b0001#4, 0b1111#4⟩,
    ⟨.nrdIter, .nrd, 0b0010#4, 0b1110#4⟩,
    ⟨.nrdCorr, .nrd, 0b0100#4, 0b1110#4⟩,
    ⟨.nrdFix, .nrd, 0b0110#4, 0b1110#4⟩ ]

def Row.hits (r : Row) (u : UnitId) (cv : BitVec 4) : Bool :=
  decide (r.unit = u) && decide (cv &&& r.mask = r.patt)

/-- Rule R76: "The first row of rule R77 that matches `cv` under its mask". -/
def firstRow (u : UnitId) (cv : BitVec 4) : Option RowName :=
  (controlTable.find? fun r => r.hits u cv).map Row.name

/-- The row an instruction stands for. -/
def Instr.row : Instr → RowName
  | .rdReset _ _ => .rdReset
  | .rdIdle => .rdIdle
  | .rdStart _ _ => .rdStart
  | .rdIter _ => .rdIter
  | .rdRsv _ => .rdRsv
  | .rdFix _ => .rdFix
  | .nrdReset _ _ => .nrdReset
  | .nrdIdle => .nrdIdle
  | .nrdStart _ _ => .nrdStart
  | .nrdIter _ => .nrdIter
  | .nrdCorr _ => .nrdCorr
  | .nrdFix _ => .nrdFix

/-! ## Words as the opcode table numbers them -/

/-- Why a number is no table word. -/
inductive DecodeReject where
  /-- a bit above the control vector and the unit select is set: no row has such a bit (rule R80) -/
  | bitsAboveUnitSelect
  deriving DecidableEq, Repr

/-- A row word written as one number: bits 3..0 are `cv` (rule R76). DESIGN CHOICE (log 6): bit 4 names the unit, 0 for
RD and 1 for NRD, since "the unit is not a bit of `cv`" (rule R77) and the rows of the two units are the same words.
The operand words are 0. -/
def decodeWord (w : Nat) : Except DecodeReject Instr :=
  if 32 ≤ w then .error .bitsAboveUnitSelect
  else .ok (decode ⟨if w.testBit 4 then .nrd else .rd, BitVec.ofNat 4 w, 0, 0⟩)

/-- The number of an instruction's unit and control vector, in the layout of `decodeWord`. -/
def encodeWord (i : Instr) : Nat :=
  (encode i).cv.toNat + (match i.unit with | .rd => 0 | .nrd => 16)

/-- The host's name for `decodeWord` on the low `nbits` bits of `w`. -/
def decodeTableWord (nbits w : Nat) : Option Instr :=
  match decodeWord (w % 2 ^ nbits) with
  | .ok i => some i
  | .error _ => none

end Sys2Proof
end

