-- ==== Sys2Proof/Machine/State.lean ====
section
/-! DEFINITION. The state of the core (rules R20 to R34 of 10_state.md): the registers of the two units, the width they
are built with, and the host's inputs for the edges to come. -/

namespace Sys2Proof.Machine

/-- Why a step stops with a fault. The core has no traps: its two error conditions are reported on the `err` output of a
next state (rules R200 and R203), and "No error or fault can arise in ITER, CORR or FIX" (rule R205). So nothing raises a
fault, and the type has no constructor (log 10). -/
inductive Fault where
  deriving DecidableEq, Repr

/-- Why a step is refused. -/
inductive Refusal where
  /-- Raised by an arm of `exec` whose row has no meaning yet; safe. No arm of this model does. -/
  | notModelled (mnemonic : String)
  /-- Raised by RD.RSV: `ph = 10` in the restoring unit, a row to which the spec gives no meaning (rule R103, U9); safe. -/
  | rdReservedPhase
  /-- Raised by `step` when the state's width is below 2: no unit is built so (rule R5, U14); safe. -/
  | widthBelowTwo
  deriving DecidableEq, Repr

/-- The error code held in the 2-bit register `err_r` (rule R75). -/
inductive ErrCode where
  | none | divByZero | widthOverflow | reserved
  deriving DecidableEq, Repr

/-- The registers of one unit (rule R20). `draws` is the model's own: the number of times a reset edge has drawn the
unspecified registers (rule R32, log 3). -/
structure DivUnit (N : Nat) where
  ph : Phase
  A : Acc N
  Q : Word N
  M : Word N
  i : BitVec (IW N)
  cnt : BitVec (CW N)
  sq : Bool
  sr : Bool
  doneR : Bool
  errR : ErrCode
  quoR : Word N
  remR : Word N
  cntR : BitVec (CW N)
  draws : Nat
  deriving DecidableEq, Repr

/-- The inputs of one unit at an edge, apart from the shared `rst` (rule R29). -/
structure UnitIn (N : Nat) where
  start : Bool
  dividend : Word N
  divisor : Word N
  deriving DecidableEq, Repr

/-- The input record of one edge (rule R82). -/
structure Edge (N : Nat) where
  rst : Bool
  rd : UnitIn N
  nrd : UnitIn N
  deriving DecidableEq, Repr

/-- The whole core. `N` is the build parameter of rule R5, the same for both units (log 1). `inputs` is the model's own:
what the host drives at the edges to come, the next edge first (log 4). -/
structure State where
  N : Nat
  rd : DivUnit N
  nrd : DivUnit N
  inputs : List (Edge N)
  deriving DecidableEq, Repr

/-- A unit right after a reset edge: `ph`, `done_r`, `err_r`, `quo_r`, `rem_r` and `cnt_r` as rule R31 gives them. The
spec gives `A`, `Q`, `M`, `i`, `cnt`, `sq` and `sr` no value (rule R32); DESIGN CHOICE (log 2): 0. -/
def DivUnit.reset (N : Nat) : DivUnit N where
  ph := .idle
  A := 0
  Q := 0
  M := 0
  i := 0
  cnt := 0
  sq := false
  sr := false
  doneR := false
  errR := .none
  quoR := 0
  remR := 0
  cntR := 0
  draws := 0

/-- The core of width `N` right after a reset edge (rule R31), with no input promised by the host. -/
def State.resetAt (N : Nat) : State where
  N := N
  rd := DivUnit.reset N
  nrd := DivUnit.reset N
  inputs := []

/-- The machine right after reset, at the width `Config.resetWidth` (log 1). -/
def State.reset : State := State.resetAt Config.resetWidth

/-- `s` with RD's registers replaced. -/
@[reducible] def State.setRd (s : State) (u : DivUnit s.N) : State := { s with rd := u }

/-- `s` with NRD's registers replaced. -/
@[reducible] def State.setNrd (s : State) (u : DivUnit s.N) : State := { s with nrd := u }

end Sys2Proof.Machine
end

