-- ==== Sys2Proof/Machine/Flags.lean ====
section
/-! DEFINITION. The core's only condition flag: the sign of an accumulator value, bit `N` of an `N+1`-bit word (rule R24 of
10_state.md). There is no carry, overflow or zero flag. -/

namespace Sys2Proof.Machine

/-- Rule R24: `v[N]` of an accumulator value; true means negative. -/
def signFlag {N : Nat} (v : Acc N) : Bool := v.getLsbD N

end Sys2Proof.Machine
end

