-- ==== Sys2Proof/Machine/Operands.lean ====
section
/-! DEFINITION. Operand words: sign, magnitude, the one invalid word, and the check of an accepting edge (rules R70 to
R73 of 30_encoding.md, R200 to R202 of 60_exceptions.md). -/

namespace Sys2Proof.Machine

/-- Rule R71: `MINW`, bit `N-1` set and all other bits clear, the one operand word that is not valid. -/
def minw (N : Nat) : Word N := BitVec.twoPow N (N - 1)

/-- Rule R73: the sign of an operand word is its bit `N-1`. -/
def signBit {N : Nat} (w : Word N) : Bool := w.getLsbD (N - 1)

/-- Rule R72: the magnitude of an operand word. -/
def mag {N : Nat} (w : Word N) : Word N := if signBit w then -w else w

/-- Rule R201: the check of an accepting edge. A zero divisor comes first (rule R202). -/
def chk {N : Nat} (dividend divisor : Word N) : ErrCode :=
  if divisor = 0 then .divByZero
  else if dividend = minw N ∨ divisor = minw N then .widthOverflow
  else .none

/-- The `N`-bit word of an instruction's data operand; a well-formed one is already below `2^N` (log 7). -/
def operandWord (N w : Nat) : Word N := BitVec.ofNat N w

end Sys2Proof.Machine
end

