-- ==== Sys2Proof/Machine/Ops.lean ====
section
/-! DEFINITION. The operations the step rules share, each on the registers of one unit: the double-register shift, the
quotient bit, the counters, the sign correction, error entry, and the pieces of START, FIX and RESET that the two units
have in common (rules R131 and R134: the same pseudocode in both). The core has no memory (rule R50). -/

namespace Sys2Proof.Machine

variable {N : Nat}

/-- `zext` to the accumulator's width (rule R7). -/
def zextAcc (w : Word N) : Acc N := w.setWidth (N + 1)

/-- One bit as a word of width `w`. -/
def bitWord (w : Nat) (b : Bool) : BitVec w := (BitVec.ofBool b).setWidth w

/-- Rules R102, R132, R161: `As`, the accumulator after the shift of `(A, Q)`; it takes in `Q[N-1]`. -/
def shiftAcc (A : Acc N) (Q : Word N) : Acc N := (A <<< 1) ||| bitWord (N + 1) (Q.getLsbD (N - 1))

/-- Rules R102, R132, R161: `Qs`, with bit 0 clear. -/
def shiftQuo (Q : Word N) : Word N := Q <<< 1

/-- Records the quotient bit in `Q[0]` (rule R22). -/
def recordBit (Qs : Word N) (b : Bool) : Word N := Qs ||| bitWord N b

/-- Rule R26: one more counted operation. -/
def DivUnit.countOne (u : DivUnit N) : DivUnit N := { u with cnt := u.cnt + 1 }

/-- Rules R23, R102, R132: the end of an iteration. The last one leaves ITER for `exit` and sets `i` to 0. -/
def DivUnit.endIteration (exit : Phase) (u : DivUnit N) : DivUnit N :=
  if u.i.toNat = N - 1 then { u with i := 0, ph := exit } else { u with i := u.i + 1 }

/-- Rule R163: `fix(m, s)`. -/
def fixSign (m : Word N) (s : Bool) : Word N := if s then -m else m

/-- Rule R203: error entry, the core's one way of taking an exception. The working registers and `ph` are not written. It
is left by the next accepting edge or by reset; there is no return-from-error operation (rule R204). -/
def DivUnit.completeWithError (e : ErrCode) (u : DivUnit N) : DivUnit N :=
  { u with errR := e, doneR := true, quoR := 0, remR := 0, cntR := 0 }

/-- Rules R101 and R131, the valid case: the working registers take their copy of the operands. -/
def DivUnit.initialise (dividend divisor : Word N) (u : DivUnit N) : DivUnit N :=
  { u with
    A := 0
    Q := mag dividend
    M := mag divisor
    sq := xor (signBit dividend) (signBit divisor)
    sr := signBit dividend
    i := 0
    cnt := 0
    doneR := false
    errR := .none
    ph := .iter }

/-- Rules R101 and R131: an accepting edge. -/
def DivUnit.accept (dividend divisor : Word N) (u : DivUnit N) : DivUnit N :=
  if chk dividend divisor = .none then u.initialise dividend divisor
  else u.completeWithError (chk dividend divisor)

/-- Rules R104 and R134: the sign correction and the result write. -/
def DivUnit.writeResult (u : DivUnit N) : DivUnit N :=
  { u with
    quoR := fixSign u.Q u.sq
    remR := fixSign (u.A.setWidth N) u.sr
    cntR := u.cnt
    doneR := true
    ph := .idle }

/-- Rules R230, R31 and R32: a reset edge of unit `id`. The seven working registers are free draws (log 3). -/
def DivUnit.hardReset (id : UnitId) (u : DivUnit N) : DivUnit N :=
  { ph := .idle
    doneR := false
    errR := .none
    quoR := 0
    remR := 0
    cntR := 0
    A := Config.freeDraw id .A u.draws (N + 1)
    Q := Config.freeDraw id .Q u.draws N
    M := Config.freeDraw id .M u.draws N
    i := Config.freeDraw id .i u.draws (IW N)
    cnt := Config.freeDraw id .cnt u.draws (CW N)
    sq := (Config.freeDraw id .sq u.draws 1).getLsbD 0
    sr := (Config.freeDraw id .sr u.draws 1).getLsbD 0
    draws := u.draws + 1 }

/-- `f` on the next state, if there is one. -/
def andThen (r : Host.Outcome State Fault Refusal) (f : State → Host.Outcome State Fault Refusal) :
    Host.Outcome State Fault Refusal :=
  match r with
  | .next s => f s
  | .fault e => .fault e
  | .refused e => .refused e

end Sys2Proof.Machine
end

