-- ==== Sys2Proof/Machine/NonRestoring.lean ====
section
/-! DEFINITION. The rows of `non_restoring_divider` (41_non_restoring.md; NRD.RESET is rule R230 of
70_reset_and_hazards.md). -/

namespace Sys2Proof.Machine

/-- Rule R132: one non-restoring iteration. The sign tested is that of `A` before the shift (D32, conflict C4). -/
def DivUnit.nonRestoringIter {N : Nat} (u : DivUnit N) : DivUnit N :=
  let s := signFlag u.A
  let As := shiftAcc u.A u.Q
  let Qs := shiftQuo u.Q
  let An := if s then As + zextAcc u.M else As - zextAcc u.M
  let moved : DivUnit N := { u with A := An, Q := recordBit Qs (!signFlag An) }
  moved.countOne.endIteration .corr

/-- Rule R133: the corrective addition, made and counted only when `A` is negative. -/
def DivUnit.correct {N : Nat} (u : DivUnit N) : DivUnit N :=
  let added : DivUnit N := if signFlag u.A then { u with A := u.A + zextAcc u.M }.countOne else u
  { added with ph := .fix }

/-- NRD.RESET (rule R230). -/
def execNrdReset (_ph : Phase) (_start : Bool) (s : State) : Host.Outcome State Fault Refusal :=
  .next (s.setNrd (s.nrd.hardReset .nrd))

/-- NRD.IDLE (rule R130). -/
def execNrdIdle (s : State) : Host.Outcome State Fault Refusal :=
  .next s

/-- NRD.START (rule R131). -/
def execNrdStart (dividend divisor : Nat) (s : State) : Host.Outcome State Fault Refusal :=
  .next (s.setNrd (s.nrd.accept (operandWord s.N dividend) (operandWord s.N divisor)))

/-- NRD.ITER (rule R132); `start` is ignored. -/
def execNrdIter (_start : Bool) (s : State) : Host.Outcome State Fault Refusal :=
  .next (s.setNrd s.nrd.nonRestoringIter)

/-- NRD.CORR (rule R133); `start` is ignored. -/
def execNrdCorr (_start : Bool) (s : State) : Host.Outcome State Fault Refusal :=
  .next (s.setNrd s.nrd.correct)

/-- NRD.FIX (rule R134); `start` is ignored. -/
def execNrdFix (_start : Bool) (s : State) : Host.Outcome State Fault Refusal :=
  .next (s.setNrd s.nrd.writeResult)

end Sys2Proof.Machine
end

