-- ==== Sys2Proof/Machine/Restoring.lean ====
section
/-! DEFINITION. The rows of `restoring_divider` (40_restoring.md; RD.RESET is rule R230 of 70_reset_and_hazards.md). -/

namespace Sys2Proof.Machine

/-- Rule R102: one restoring iteration. A negative trial difference is restored by keeping the shifted `A`, which is the
value that adding `M` back gives, and is not counted a second time (rule R108, conflict C2). -/
def DivUnit.restoringIter {N : Nat} (u : DivUnit N) : DivUnit N :=
  let As := shiftAcc u.A u.Q
  let Qs := shiftQuo u.Q
  let D := As - zextAcc u.M
  let kept : DivUnit N :=
    if signFlag D then { u with A := As, Q := Qs }
    else { u with A := D, Q := recordBit Qs true }
  kept.countOne.endIteration .fix

/-- RD.RESET (rule R230). -/
def execRdReset (_ph : Phase) (_start : Bool) (s : State) : Host.Outcome State Fault Refusal :=
  .next (s.setRd (s.rd.hardReset .rd))

/-- RD.IDLE (rule R100). -/
def execRdIdle (s : State) : Host.Outcome State Fault Refusal :=
  .next s

/-- RD.START (rule R101). -/
def execRdStart (dividend divisor : Nat) (s : State) : Host.Outcome State Fault Refusal :=
  .next (s.setRd (s.rd.accept (operandWord s.N dividend) (operandWord s.N divisor)))

/-- RD.ITER (rule R102); `start` is ignored. -/
def execRdIter (_start : Bool) (s : State) : Host.Outcome State Fault Refusal :=
  .next (s.setRd s.rd.restoringIter)

/-- RD.RSV (rule R103): "The spec gives this row no meaning"; a model refuses it (U9). -/
def execRdRsv (_start : Bool) (_s : State) : Host.Outcome State Fault Refusal :=
  .refused .rdReservedPhase

/-- RD.FIX (rule R104); `start` is ignored. -/
def execRdFix (_start : Bool) (s : State) : Host.Outcome State Fault Refusal :=
  .next (s.setRd s.rd.writeResult)

end Sys2Proof.Machine
end

