-- ==== Sys2Proof/Machine/Dispatch.lean ====
section
/-! DEFINITION. One arm per row of the control table. -/

namespace Sys2Proof.Machine

def exec (i : Instr) (s : State) : Host.Outcome State Fault Refusal :=
  match i with
  | .rdReset ph start => Sys2Proof.Machine.execRdReset ph start s
  | .rdIdle => Sys2Proof.Machine.execRdIdle s
  | .rdStart dividend divisor => Sys2Proof.Machine.execRdStart dividend divisor s
  | .rdIter start => Sys2Proof.Machine.execRdIter start s
  | .rdRsv start => Sys2Proof.Machine.execRdRsv start s
  | .rdFix start => Sys2Proof.Machine.execRdFix start s
  | .nrdReset ph start => Sys2Proof.Machine.execNrdReset ph start s
  | .nrdIdle => Sys2Proof.Machine.execNrdIdle s
  | .nrdStart dividend divisor => Sys2Proof.Machine.execNrdStart dividend divisor s
  | .nrdIter start => Sys2Proof.Machine.execNrdIter start s
  | .nrdCorr start => Sys2Proof.Machine.execNrdCorr start s
  | .nrdFix start => Sys2Proof.Machine.execNrdFix start s

end Sys2Proof.Machine
end

