-- ==== Sys2Proof/Machine/Ports.lean ====
section
/-! DEFINITION. The ports of the two units: the inputs of the next edge, the row word each unit builds from them, and the
outputs (rules R29, R30, R53, R76, R82). -/

namespace Sys2Proof.Machine

variable {N : Nat}

/-- Every input of a unit 0. -/
def UnitIn.quiet (N : Nat) : UnitIn N := ⟨false, 0, 0⟩

/-- Rule R82: "An input the statement does not name is `0`". -/
def Edge.quiet (N : Nat) : Edge N := ⟨false, UnitIn.quiet N, UnitIn.quiet N⟩

/-- The inputs at the next edge. DESIGN CHOICE (log 4): where the host has promised none, every input is 0. -/
def State.nextEdge (s : State) : Edge s.N := s.inputs.headD (Edge.quiet s.N)

/-- The same state once the host's record for the edge has been used. -/
@[reducible] def State.dropEdge (s : State) : State := { s with inputs := s.inputs.tail }

/-- Rule R76: the row word of a unit at an edge, from its phase and the inputs sampled there. -/
def rowWord (id : UnitId) (rst : Bool) (inp : UnitIn N) (u : DivUnit N) : RowWord :=
  ⟨id, controlVector rst u.ph inp.start, inp.dividend.toNat, inp.divisor.toNat⟩

/-- The row RD applies at the next edge. -/
def State.rdInstr (s : State) : Instr := decode (rowWord .rd s.nextEdge.rst s.nextEdge.rd s.rd)

/-- The row NRD applies at the next edge. -/
def State.nrdInstr (s : State) : Instr := decode (rowWord .nrd s.nextEdge.rst s.nextEdge.nrd s.nrd)

/-- Rule R75: the code of an error on the `err` output. -/
def ErrCode.code : ErrCode → BitVec 2
  | .none => 0b00#2
  | .divByZero => 0b01#2
  | .widthOverflow => 0b10#2
  | .reserved => 0b11#2

/-- The outputs of one unit (rule R30). -/
structure Outputs (N : Nat) where
  busy : Bool
  done : Bool
  err : BitVec 2
  quotient : Word N
  remainder : Word N
  opCount : BitVec (CW N)
  deriving DecidableEq, Repr

/-- Rule R30: every output is a function of the unit's registers alone. -/
def DivUnit.outputs (u : DivUnit N) : Outputs N where
  busy := decide (u.ph ≠ .idle)
  done := u.doneR
  err := u.errR.code
  quotient := u.quoR
  remainder := u.remR
  opCount := u.cntR

/-- The outputs of the unit named `id`. -/
def State.outputs (s : State) : UnitId → Outputs s.N
  | .rd => s.rd.outputs
  | .nrd => s.nrd.outputs

/-- The unit's phase set to that of a table word, for `State.withFetchWord`. -/
def DivUnit.atPhaseOf (cv : BitVec 4) (u : DivUnit N) : DivUnit N :=
  { u with ph := Phase.ofCode (cv.extractLsb' 1 2) }

/-- The edge that drives `rst` and the named unit's `start` as a control vector has them, and every other input 0. -/
def Edge.ofTableWord (N : Nat) (id : UnitId) (cv : BitVec 4) : Edge N :=
  let inp : UnitIn N := ⟨cv.getLsbD 0, 0, 0⟩
  match id with
  | .rd => ⟨cv.getLsbD 3, inp, UnitIn.quiet N⟩
  | .nrd => ⟨cv.getLsbD 3, UnitIn.quiet N, inp⟩

/-- Makes the row of a table word (in the layout of `decodeWord`) the one its unit applies at the next edge: that unit's
phase and the next edge record are set, and nothing else. A number that is no table word changes nothing. -/
def State.placeWord (s : State) (w : Nat) : State :=
  let cv := BitVec.ofNat 4 w
  match decodeWord w with
  | .error _ => s
  | .ok _ =>
    if w.testBit 4 then
      { s with nrd := s.nrd.atPhaseOf cv, inputs := Edge.ofTableWord s.N .nrd cv :: s.inputs }
    else
      { s with rd := s.rd.atPhaseOf cv, inputs := Edge.ofTableWord s.N .rd cv :: s.inputs }

end Sys2Proof.Machine
end

