-- ==== Sys2Proof/Machine/Step.lean ====
section
/-! DEFINITION. One step is one rising edge of the shared clock (rule R9): each unit applies the one row its control vector
selects (rule R76), and "Both units step at every edge" (rule R82). Both rows are chosen from the state before the edge;
RD's is applied first, which no register can tell, since the units share none (rule R56; log 5). -/

namespace Sys2Proof.Machine

/-- One edge. A width below 2 is refused (rule R5, U14). -/
def step (s : State) : Host.Outcome State Fault Refusal :=
  if s.N < 2 then .refused .widthBelowTwo
  else
    andThen (exec s.rdInstr s) fun t =>
      andThen (exec s.nrdInstr t) fun r => .next r.dropEdge

/-- The row of a table word placed where the next step takes it (log 14). -/
def State.withFetchWord (s : State) (nbits w : Nat) : State := s.placeWord (w % 2 ^ nbits)

end Sys2Proof.Machine
end

