-- ==== Sys2Proof/Machine/Stimulus.lean ====
section
/-! DEFINITION. The stimulus notation, the core's assembler language (rules R51 and R81 to R84): operands, statements,
their expansion to edges, running them against the machine, the bit encoding of an edge, and the reading of a program's
text. None of it is hardware (D25). -/

namespace Sys2Proof.Machine

variable {N : Nat}

/-- Why the notation refuses a program, or why a run of one ends early. -/
inductive StimulusError where
  /-- a `0b` literal with more or fewer than `N` digits (rule R81, U3) -/
  | wrongDigitCount
  /-- a `#` literal outside `[-2^(N-1), 2^(N-1) - 1]` (rule R81) -/
  | decimalOutOfRange
  /-- a line that is no statement of rule R81's grammar -/
  | noStatement
  /-- a bit list that is not one edge of width `N` (rule R84) -/
  | wrongEdgeLength
  /-- `WAIT` on a unit whose `done` never rises under inputs of 0 -/
  | waitNeverEnds
  /-- an `EXPECT` check that fails: "A check that fails is a failed program" (rule R82) -/
  | expectFailed
  /-- the machine refuses an edge -/
  | stopped (r : Refusal)
  deriving DecidableEq, Repr

/-! ## Bit order and edge encoding -/

/-- Rule R51: the digits of a word, bit `N-1` first. -/
def wordBits (w : Word N) : List Bool := (List.range N).map fun k => w.getLsbD (N - 1 - k)

/-- Rule R51: the number whose binary digits are given, most significant first. -/
def bitsNat (digits : List Bool) : Nat := digits.foldl (fun v b => 2 * v + b.toNat) 0

/-- The word of `N` digits, leading digit = bit `N-1` (rules R51, R81). -/
def wordOfBits (N : Nat) (digits : List Bool) : Word N := BitVec.ofNat N (bitsNat digits)

def UnitIn.bits (inp : UnitIn N) : List Bool := inp.start :: (wordBits inp.dividend ++ wordBits inp.divisor)

/-- Rule R84: `rst | RD: start dividend divisor | NRD: start dividend divisor`, words in binary. -/
def Edge.bits (e : Edge N) : List Bool := e.rst :: (e.rd.bits ++ e.nrd.bits)

/-- The inputs of a unit from `1 + 2 * N` bits. -/
def UnitIn.ofBits (N : Nat) (bits : List Bool) : UnitIn N :=
  ⟨bits.headD false, wordOfBits N (bits.tail.take N), wordOfBits N (bits.tail.drop N)⟩

/-- The edge whose encoding `bits` is; a list of another length is refused by name. -/
def Edge.ofBits (N : Nat) (bits : List Bool) : Except StimulusError (Edge N) :=
  if bits.length = 4 * N + 3 then
    .ok ⟨bits.headD false, UnitIn.ofBits N (bits.tail.take (2 * N + 1)), UnitIn.ofBits N (bits.tail.drop (2 * N + 1))⟩
  else .error .wrongEdgeLength

/-! ## Statements (rule R81) -/

inductive Opnd where
  /-- `0b…`, leading digit first -/
  | bin (digits : List Bool)
  /-- `#…`, a signed decimal -/
  | dec (value : Int)
  deriving DecidableEq, Repr

inductive Stmt where
  | reset
  | rdiv (a b : Opnd)
  | nrdiv (a b : Opnd)
  | div (a b : Opnd)
  | tick (count : Nat)
  | wait (unit : UnitId)
  | expect (unit : UnitId) (q r : Opnd) (count : Nat) (err : ErrCode)
  | rdivw (a b : Opnd)
  | nrdivw (a b : Opnd)
  | divw (a b : Opnd)
  deriving DecidableEq, Repr

/-- Rule R81: the word of an operand literal, or its refusal. -/
def Opnd.word (N : Nat) : Opnd → Except StimulusError (Word N)
  | .bin digits => if digits.length = N then .ok (wordOfBits N digits) else .error .wrongDigitCount
  | .dec value =>
    if -(2 ^ (N - 1) : Int) ≤ value ∧ value ≤ 2 ^ (N - 1) - 1 then .ok (BitVec.ofInt N value)
    else .error .decimalOutOfRange

/-- Rule R83: the expansion of the pseudo statements. -/
def Stmt.expand : Stmt → List Stmt
  | .rdivw a b => [.rdiv a b, .wait .rd]
  | .nrdivw a b => [.nrdiv a b, .wait .nrd]
  | .divw a b => [.div a b, .wait .rd, .wait .nrd]
  | s => [s]

/-- The start of an operation on operands `a`, `b`. -/
def startOf (N : Nat) (a b : Opnd) : Except StimulusError (UnitIn N) := do
  return ⟨true, ← a.word N, ← b.word N⟩

/-- Rule R82: the edges a statement emits whatever the state is; those of `WAIT` depend on it (`runWait`). -/
def Stmt.edges (N : Nat) : Stmt → Except StimulusError (List (Edge N))
  | .reset => .ok [⟨true, UnitIn.quiet N, UnitIn.quiet N⟩]
  | .rdiv a b => do return [⟨false, ← startOf N a b, UnitIn.quiet N⟩]
  | .nrdiv a b => do return [⟨false, UnitIn.quiet N, ← startOf N a b⟩]
  | .div a b => do return [⟨false, ← startOf N a b, ← startOf N a b⟩]
  | .tick count => .ok (List.replicate count (Edge.quiet N))
  | .wait _ | .expect _ _ _ _ _ | .rdivw _ _ | .nrdivw _ _ | .divw _ _ => .ok []

/-! ## Running a program (rules R82, R83, R84) -/

/-- The state a program has reached and the encoding of the edges it has emitted (rule R84), first edge first. -/
structure Run where
  state : State
  emitted : List (List Bool)
  deriving DecidableEq, Repr

/-- `k` edges of the machine. -/
def stepMany : Nat → State → Except StimulusError State
  | 0, s => .ok s
  | k + 1, s =>
    match step s with
    | .next t => stepMany k t
    | .fault e => nomatch e
    | .refused r => .error (.stopped r)

/-- Drives the given edges, before any that the state already promises. -/
def Run.drive (r : Run) (edges : List (Edge r.state.N)) : Except StimulusError Run := do
  let s := r.state
  let t ← stepMany edges.length { s with inputs := edges ++ s.inputs }
  return ⟨t, r.emitted ++ edges.map Edge.bits⟩

/-- Rule R82, `WAIT`: edges of 0 while `done` is 0, checked before each edge. A busy unit finishes within `N + 2` edges
(rule R239); a unit that has not finished by then is idle and stays so (log 17). -/
def runWait (id : UnitId) : Nat → Run → Except StimulusError Run
  | 0, r => if (r.state.outputs id).done then .ok r else .error .waitNeverEnds
  | fuel + 1, r =>
    if (r.state.outputs id).done then .ok r
    else do runWait id fuel (← r.drive [Edge.quiet r.state.N])

/-- Rule R82, `EXPECT`: whether the unit shows these results. -/
def expectHolds (s : State) (id : UnitId) (q r : Word s.N) (count : Nat) (err : ErrCode) : Bool :=
  let o := s.outputs id
  o.done && decide (o.quotient = q) && decide (o.remainder = r) && decide (o.opCount.toNat = count)
    && decide (o.err = err.code)

/-- One statement that is no pseudo statement. -/
def runPlain (st : Stmt) (r : Run) : Except StimulusError Run :=
  match st with
  | .wait id => runWait id (r.state.N + 2) r
  | .expect id q rm count err => do
    if expectHolds r.state id (← q.word r.state.N) (← rm.word r.state.N) count err then return r
    else .error .expectFailed
  | st => do r.drive (← st.edges r.state.N)

def runProgram (program : List Stmt) (s : State) : Except StimulusError Run :=
  (program.flatMap Stmt.expand).foldlM (fun r st => runPlain st r) ⟨s, []⟩

/-! ## Reading a program's text (rule R81: one statement per line; `;` starts a comment) -/

def isBlank (c : Char) : Bool := c = ' ' || c = '\t' || c = '\r'

/-- A finished token, if it has a character. -/
def flush (cur : List Char) : List (List Char) := if cur.isEmpty then [] else [cur]

/-- The tokens of a line: runs of characters between blanks, a comma being a token of its own. -/
def tokens : List Char → List Char → List (List Char)
  | [], cur => flush cur
  | c :: cs, cur =>
    if c = ';' then flush cur
    else if isBlank c then flush cur ++ tokens cs []
    else if c = ',' then flush cur ++ [','] :: tokens cs []
    else tokens cs (cur ++ [c])

def splitLines : List Char → List Char → List (List Char)
  | [], cur => [cur]
  | c :: cs, cur => if c = '\n' then cur :: splitLines cs [] else splitLines cs (cur ++ [c])

/-- A non-empty decimal number. -/
def readNat (t : List Char) : Option Nat :=
  if t.isEmpty || !t.all Char.isDigit then none
  else some (t.foldl (fun v c => 10 * v + (c.toNat - '0'.toNat)) 0)

def readBit : Char → Option Bool
  | '0' => some false
  | '1' => some true
  | _ => none

/-- `opnd` of rule R81; how many binary digits are right depends on `N` and is checked by `Opnd.word`. -/
def readOpnd : List Char → Option Opnd
  | '0' :: 'b' :: t => (t.mapM readBit).map .bin
  | '#' :: '-' :: t => (readNat t).map fun v => .dec (-v)
  | '#' :: t => (readNat t).map fun v => .dec v
  | _ => none

def readUnit (t : List Char) : Option UnitId :=
  if t = ['R', 'D'] then some .rd else if t = ['N', 'R', 'D'] then some .nrd else none

def readErr (t : List Char) : Option ErrCode :=
  if t = ['N', 'O', 'N', 'E'] then some .none
  else if t = ['D', 'B', 'Z'] then some .divByZero
  else if t = ['W', 'O'] then some .widthOverflow
  else none

def readDivision (kw : List Char) (a b : Opnd) : Option Stmt :=
  if kw = ['R', 'D', 'I', 'V'] then some (.rdiv a b)
  else if kw = ['N', 'R', 'D', 'I', 'V'] then some (.nrdiv a b)
  else if kw = ['D', 'I', 'V'] then some (.div a b)
  else if kw = ['R', 'D', 'I', 'V', 'W'] then some (.rdivw a b)
  else if kw = ['N', 'R', 'D', 'I', 'V', 'W'] then some (.nrdivw a b)
  else if kw = ['D', 'I', 'V', 'W'] then some (.divw a b)
  else none

/-- One statement from its tokens. -/
def readStmt : List (List Char) → Option Stmt
  | [kw] => if kw = ['R', 'E', 'S', 'E', 'T'] then some .reset else none
  | [kw, a] =>
    if kw = ['T', 'I', 'C', 'K'] then (readNat a).map .tick
    else if kw = ['W', 'A', 'I', 'T'] then (readUnit a).map .wait
    else none
  | [kw, a, [','], b] => do readDivision kw (← readOpnd a) (← readOpnd b)
  | [kw, u, [','], q, [','], r, [','], count, [','], err] => do
    if kw = ['E', 'X', 'P', 'E', 'C', 'T'] then
      return .expect (← readUnit u) (← readOpnd q) (← readOpnd r) (← readNat count) (← readErr err)
    else none
  | _ => none

/-- A line: nothing, or one statement. -/
def readLine (line : List Char) : Except StimulusError (List Stmt) :=
  match tokens line [] with
  | [] => .ok []
  | ts =>
    match readStmt ts with
    | some st => .ok [st]
    | none => .error .noStatement

def readProgram (text : List Char) : Except StimulusError (List Stmt) := do
  return (← (splitLines text []).mapM readLine).flatten

end Sys2Proof.Machine
end

