-- ==== Sys2Proof/Safety.lean ====
section
/-! DEFINITION. What a good state of the core is: the ranges, the loop invariants and the meaning of the outputs that the
spec derives from its step rules (rules R23, R27, R54, R103, R160, R164 to R167), and the division law they are stated
with (rule R162). -/

namespace Sys2Proof.Machine

/-- Rule R71: the value of a valid operand word. -/
abbrev IsOperand (N : Nat) (v : Int) : Prop := -(2 ^ (N - 1) - 1 : Int) ≤ v ∧ v ≤ 2 ^ (N - 1) - 1

/-- Rule R162: the truncating quotient, by magnitudes and signs. -/
def quotOf (x y : Int) : Int :=
  if decide (x < 0) = decide (y < 0) then ((x.natAbs / y.natAbs : Nat) : Int) else -((x.natAbs / y.natAbs : Nat) : Int)

/-- Rule R162: the remainder. -/
def remOf (x y : Int) : Int := x - quotOf x y * y

/-- Rule R164: `Dk`, the top `k` bits of the `N`-bit dividend magnitude `Dv`. -/
def topBits (N Dv k : Nat) : Nat := Dv / 2 ^ (N - k)

/-- Rule R167: NRD's operation count for magnitudes `Dv` and `M`. -/
def nrdCount (N Dv M : Nat) : Nat := N + 1 - (Dv / M) % 2

/-- What both loops share after `k` iterations on the dividend magnitude `Dv`: the operand ranges (rule R71), the count
(rule R26), and the contents of `Q` (rules R164 and R165). -/
structure LoopCommon {N : Nat} (Dv k : Nat) (u : DivUnit N) : Prop where
  dividend_lt : Dv < 2 ^ (N - 1)
  divisor_pos : 1 ≤ u.M.toNat
  divisor_lt : u.M.toNat < 2 ^ (N - 1)
  count : u.cnt.toNat = k
  quotient : u.Q.toNat = Dv * 2 ^ k % 2 ^ N + topBits N Dv k / u.M.toNat

/-- Rule R164: RD after `k` iterations. -/
structure RdLoop {N : Nat} (Dv k : Nat) (u : DivUnit N) : Prop extends LoopCommon Dv k u where
  acc : u.A.toNat = topBits N Dv k % u.M.toNat

/-- Rule R165: NRD after `k` iterations. -/
structure NrdLoop {N : Nat} (Dv k : Nat) (u : DivUnit N) : Prop extends LoopCommon Dv k u where
  acc : u.A.toInt =
    if k = 0 then 0
    else if u.Q.toNat % 2 = 1 then ((topBits N Dv k % u.M.toNat : Nat) : Int)
    else ((topBits N Dv k % u.M.toNat : Nat) : Int) - u.M.toNat

/-- Rule R166: either unit at its FIX step, for the dividend magnitude `Dv`. -/
structure AtFix {N : Nat} (Dv : Nat) (u : DivUnit N) : Prop where
  dividend_lt : Dv < 2 ^ (N - 1)
  divisor_pos : 1 ≤ u.M.toNat
  divisor_lt : u.M.toNat < 2 ^ (N - 1)
  quotient : u.Q.toNat = Dv / u.M.toNat
  acc : u.A.toNat = Dv % u.M.toNat

/-- What the outputs mean, whichever unit it is; `count Dv M` is the unit's operation count for magnitudes `Dv`, `M`. -/
structure StatusOk {N : Nat} (count : Nat → Nat → Nat) (u : DivUnit N) : Prop where
  /-- rules R27 and R75: code 11 is never produced -/
  err_legal : u.errR ≠ .reserved
  /-- rules R101, R131, R205: an operation in progress shows `done = 0` and no error -/
  busy_clear : u.ph ≠ .idle → u.doneR = false ∧ u.errR = .none
  /-- rule R203: an error is shown with `done = 1` and zero results -/
  err_zero : u.errR ≠ .none → u.doneR = true ∧ u.quoR = 0 ∧ u.remR = 0 ∧ u.cntR = 0
  /-- rules R106, R136, R107, R137: `done = 1` without an error shows the result of a division of valid operands -/
  result : u.doneR = true → u.errR = .none →
    ∃ x y : Int, IsOperand N x ∧ IsOperand N y ∧ y ≠ 0 ∧ u.quoR.toInt = quotOf x y ∧ u.remR.toInt = remOf x y ∧
      u.cntR.toNat = count x.natAbs y.natAbs

/-- A good state of RD. -/
structure RdInv {N : Nat} (u : DivUnit N) : Prop where
  status : StatusOk (fun _ _ => N) u
  /-- rule R103: the reserved phase is not reached -/
  phase_legal : u.ph ≠ .corr
  iter : u.ph = .iter → u.i.toNat < N ∧ ∃ Dv, RdLoop Dv u.i.toNat u
  fix : u.ph = .fix → u.cnt.toNat = N ∧ ∃ Dv, AtFix Dv u

/-- A good state of NRD. -/
structure NrdInv {N : Nat} (u : DivUnit N) : Prop where
  status : StatusOk (nrdCount N) u
  iter : u.ph = .iter → u.i.toNat < N ∧ ∃ Dv, NrdLoop Dv u.i.toNat u
  corr : u.ph = .corr → ∃ Dv, NrdLoop Dv N u
  fix : u.ph = .fix → ∃ Dv, AtFix Dv u ∧ u.cnt.toNat = nrdCount N Dv u.M.toNat

/-- A good state of the core: a legal width (rule R5) and two good units. -/
structure State.Inv (s : State) : Prop where
  width : 2 ≤ s.N
  rd : RdInv s.rd
  nrd : NrdInv s.nrd

/-- The inputs `k` edges from now. -/
def State.edgeAt (s : State) (k : Nat) : Edge s.N := (s.inputs.drop k).headD (Edge.quiet s.N)

/-- The first `k` edges to come bring no reset. -/
abbrev State.NoReset (s : State) (k : Nat) : Prop := ∀ j < k, (s.edgeAt j).rst = false

/-- The machine's run of `k` edges. -/
abbrev run (k : Nat) (s : State) : Host.Outcome State Fault Refusal := Host.Core.run Sys2Proof.core k s

end Sys2Proof.Machine
end

