-- ==== Sys2Proof/Certificates/Slice0/Obligations.lean ====
section
/-! DEFINITION. The statements for the provers. Numbers are written as rule R7 writes them: `BitVec.ofNat w n` is
`n mod 2^w`, `BitVec.ofInt w x` is `twos_w(x)`, `.toNat` is the unsigned and `.toInt` the two's-complement value of a word.
`s.setRd u` is `s` with RD's registers `u` and everything else (NRD, the inputs, the width) unchanged; `s.setNrd u` likewise. -/

open Sys2Proof Sys2Proof.Machine

/-! ## The rows, one at a time -/

/-- Rule R31 (and R230): a RESET row answers a next state, in which its unit holds the reset values, whatever the phase and
`start`. The seven working registers are free draws (rule R32, log 3): nothing is said of them. -/
def Obligations.ResetRowsWriteResetValues : Prop :=
  ∀ (s : State) (ph : Phase) (start : Bool),
    (∃ u : DivUnit s.N, exec (.rdReset ph start) s = .next (s.setRd u) ∧
      u.ph = .idle ∧ u.doneR = false ∧ u.errR = .none ∧ u.quoR = 0 ∧ u.remR = 0 ∧ u.cntR = 0) ∧
    (∃ u : DivUnit s.N, exec (.nrdReset ph start) s = .next (s.setNrd u) ∧
      u.ph = .idle ∧ u.doneR = false ∧ u.errR = .none ∧ u.quoR = 0 ∧ u.remR = 0 ∧ u.cntR = 0)

/-- Rules R100 and R130: an IDLE row writes no register. -/
def Obligations.IdleRowsChangeNothing : Prop :=
  ∀ s : State, exec .rdIdle s = .next s ∧ exec .nrdIdle s = .next s

/-- Rule R101, the valid case: RD.START on valid operands and a non-zero divisor. -/
def Obligations.RdStartInitialises : Prop :=
  ∀ (s : State) (a b : Word s.N), 2 ≤ s.N → IsOperand s.N a.toInt → IsOperand s.N b.toInt → b.toInt ≠ 0 →
    exec (.rdStart a.toNat b.toNat) s = .next (s.setRd
      { s.rd with
        A := BitVec.ofNat (s.N + 1) 0
        Q := BitVec.ofNat s.N a.toInt.natAbs
        M := BitVec.ofNat s.N b.toInt.natAbs
        sq := xor (decide (a.toInt < 0)) (decide (b.toInt < 0))
        sr := decide (a.toInt < 0)
        i := BitVec.ofNat (IW s.N) 0
        cnt := BitVec.ofNat (CW s.N) 0
        doneR := false
        errR := .none
        ph := .iter })

/-- Rule R131, the valid case: NRD.START on valid operands and a non-zero divisor. -/
def Obligations.NrdStartInitialises : Prop :=
  ∀ (s : State) (a b : Word s.N), 2 ≤ s.N → IsOperand s.N a.toInt → IsOperand s.N b.toInt → b.toInt ≠ 0 →
    exec (.nrdStart a.toNat b.toNat) s = .next (s.setNrd
      { s.nrd with
        A := BitVec.ofNat (s.N + 1) 0
        Q := BitVec.ofNat s.N a.toInt.natAbs
        M := BitVec.ofNat s.N b.toInt.natAbs
        sq := xor (decide (a.toInt < 0)) (decide (b.toInt < 0))
        sr := decide (a.toInt < 0)
        i := BitVec.ofNat (IW s.N) 0
        cnt := BitVec.ofNat (CW s.N) 0
        doneR := false
        errR := .none
        ph := .iter })

/-- Rules R201, R202 and R203: a START row on a zero divisor reports DIV_BY_ZERO, whatever the dividend; on a `MINW` operand
and a non-zero divisor it reports WIDTH_OVERFLOW. The result registers are zero, `done_r` is 1, and nothing else changes. -/
def Obligations.StartRowsReportErrors : Prop :=
  ∀ (s : State) (a b : Word s.N), 2 ≤ s.N →
    (b.toInt = 0 →
      exec (.rdStart a.toNat b.toNat) s = .next (s.setRd
        { s.rd with errR := .divByZero, doneR := true, quoR := 0, remR := 0, cntR := 0 }) ∧
      exec (.nrdStart a.toNat b.toNat) s = .next (s.setNrd
        { s.nrd with errR := .divByZero, doneR := true, quoR := 0, remR := 0, cntR := 0 })) ∧
    (b.toInt ≠ 0 → a.toInt = -2 ^ (s.N - 1) ∨ b.toInt = -2 ^ (s.N - 1) →
      exec (.rdStart a.toNat b.toNat) s = .next (s.setRd
        { s.rd with errR := .widthOverflow, doneR := true, quoR := 0, remR := 0, cntR := 0 }) ∧
      exec (.nrdStart a.toNat b.toNat) s = .next (s.setNrd
        { s.nrd with errR := .widthOverflow, doneR := true, quoR := 0, remR := 0, cntR := 0 }))

/-- Rule R102: RD.ITER, every register it writes, in numbers; no other register changes. -/
def Obligations.RdIterOneRestoringIteration : Prop :=
  ∀ (s : State) (start : Bool), 2 ≤ s.N →
    let As : Nat := (2 * s.rd.A.toNat + s.rd.Q.toNat / 2 ^ (s.N - 1)) % 2 ^ (s.N + 1)
    let Qs : Nat := 2 * s.rd.Q.toNat % 2 ^ s.N
    let D : Nat := (((As : Int) - s.rd.M.toNat) % 2 ^ (s.N + 1)).toNat
    exec (.rdIter start) s = .next (s.setRd
      { s.rd with
        A := BitVec.ofNat (s.N + 1) (if 2 ^ s.N ≤ D then As else D)
        Q := BitVec.ofNat s.N (if 2 ^ s.N ≤ D then Qs else Qs ||| 1)
        cnt := BitVec.ofNat (CW s.N) (s.rd.cnt.toNat + 1)
        i := BitVec.ofNat (IW s.N) (if s.rd.i.toNat = s.N - 1 then 0 else s.rd.i.toNat + 1)
        ph := if s.rd.i.toNat = s.N - 1 then .fix else s.rd.ph })

/-- Rule R132: NRD.ITER, every register it writes, in numbers; no other register changes. -/
def Obligations.NrdIterOneNonRestoringIteration : Prop :=
  ∀ (s : State) (start : Bool), 2 ≤ s.N →
    let As : Nat := (2 * s.nrd.A.toNat + s.nrd.Q.toNat / 2 ^ (s.N - 1)) % 2 ^ (s.N + 1)
    let Qs : Nat := 2 * s.nrd.Q.toNat % 2 ^ s.N
    let An : Nat :=
      (((As : Int) + (if s.nrd.A.toInt < 0 then (s.nrd.M.toNat : Int) else -(s.nrd.M.toNat : Int))) % 2 ^ (s.N + 1)).toNat
    exec (.nrdIter start) s = .next (s.setNrd
      { s.nrd with
        A := BitVec.ofNat (s.N + 1) An
        Q := BitVec.ofNat s.N (Qs ||| (if 2 ^ s.N ≤ An then 0 else 1))
        cnt := BitVec.ofNat (CW s.N) (s.nrd.cnt.toNat + 1)
        i := BitVec.ofNat (IW s.N) (if s.nrd.i.toNat = s.N - 1 then 0 else s.nrd.i.toNat + 1)
        ph := if s.nrd.i.toNat = s.N - 1 then .corr else s.nrd.ph })

/-- Rule R133: NRD.CORR adds `M` and counts it exactly when `A` is negative, and moves to FIX either way. -/
def Obligations.NrdCorrAddsOnceWhenNegative : Prop :=
  ∀ (s : State) (start : Bool),
    exec (.nrdCorr start) s = .next (s.setNrd
      { s.nrd with
        A := BitVec.ofNat (s.N + 1) (s.nrd.A.toNat + (if s.nrd.A.toInt < 0 then s.nrd.M.toNat else 0))
        cnt := BitVec.ofNat (CW s.N) (s.nrd.cnt.toNat + (if s.nrd.A.toInt < 0 then 1 else 0))
        ph := .fix })

/-- Rule R104: RD.FIX. -/
def Obligations.RdFixWritesResult : Prop :=
  ∀ (s : State) (start : Bool),
    exec (.rdFix start) s = .next (s.setRd
      { s.rd with
        quoR := BitVec.ofInt s.N (if s.rd.sq then -(s.rd.Q.toNat : Int) else s.rd.Q.toNat)
        remR := BitVec.ofInt s.N (if s.rd.sr then -((s.rd.A.toNat % 2 ^ s.N : Nat) : Int) else (s.rd.A.toNat % 2 ^ s.N : Nat))
        cntR := s.rd.cnt
        doneR := true
        ph := .idle })

/-- Rule R134: NRD.FIX. -/
def Obligations.NrdFixWritesResult : Prop :=
  ∀ (s : State) (start : Bool),
    exec (.nrdFix start) s = .next (s.setNrd
      { s.nrd with
        quoR := BitVec.ofInt s.N (if s.nrd.sq then -(s.nrd.Q.toNat : Int) else s.nrd.Q.toNat)
        remR := BitVec.ofInt s.N (if s.nrd.sr then -((s.nrd.A.toNat % 2 ^ s.N : Nat) : Int) else (s.nrd.A.toNat % 2 ^ s.N : Nat))
        cntR := s.nrd.cnt
        doneR := true
        ph := .idle })

/-- Rule R103: RD.RSV has no meaning and is refused; no row writes `ph <- 10` in RD, so that no run enters the phase. -/
def Obligations.RdReservedPhaseRefusedAndNeverEntered : Prop :=
  (∀ (s : State) (start : Bool), exec (.rdRsv start) s = .refused .rdReservedPhase) ∧
  (∀ (i : Instr) (s t : State), exec i s = .next t → s.rd.ph ≠ .corr → t.rd.ph ≠ .corr) ∧
  (∀ (k : Nat) (s t : State), run k s = .next t → s.rd.ph ≠ .corr → t.rd.ph ≠ .corr)

/-! ## Encoding -/

/-- Rules R76 and R77: words written out from the table, and what they decode to. A bit above the unit select of the model's
table word (log 6) is rejected. -/
def Obligations.TableWordsDecode : Prop :=
  decode ⟨.rd, 0b1000#4, 0, 0⟩ = .rdReset .idle false ∧
  decode ⟨.rd, 0b1111#4, 5, 3⟩ = .rdReset .fix true ∧
  decode ⟨.rd, 0b0001#4, 7, 2⟩ = .rdStart 7 2 ∧
  decode ⟨.rd, 0b0011#4, 7, 2⟩ = .rdIter true ∧
  decode ⟨.rd, 0b0100#4, 0, 0⟩ = .rdRsv false ∧
  decode ⟨.nrd, 0b0000#4, 7, 2⟩ = .nrdIdle ∧
  decode ⟨.nrd, 0b0100#4, 0, 0⟩ = .nrdCorr false ∧
  decode ⟨.nrd, 0b0111#4, 0, 0⟩ = .nrdFix true ∧
  decodeTableWord 8 0x06 = some (.rdFix false) ∧
  decodeTableWord 8 0x12 = some (.nrdIter false) ∧
  decodeTableWord 8 0x20 = none

/-- Rule R76: `cv` is built as `(rst, ph[1], ph[0], start)`, and the row a unit applies is the first one of rule R77's table
that matches it under its mask. -/
def Obligations.DecodedRowIsFirstMatch : Prop :=
  (∀ (rst : Bool) (ph : Phase) (start : Bool),
    (controlVector rst ph start).toNat = 8 * rst.toNat + 2 * ph.code.toNat + start.toNat) ∧
  (∀ w : RowWord, firstRow w.unit w.cv = some (decode w).row)

/-- Rule R77: the six rows of each unit cover all 16 values of `cv`, and no two of them match the same value. (The reset
row's priority is already in the masks: every other row has bit 3 of `cv` clear.) -/
def Obligations.RowsCoverWithoutOverlap : Prop :=
  ∀ (u : UnitId) (cv : BitVec 4),
    (∃ r ∈ controlTable, r.hits u cv = true) ∧
    (∀ r ∈ controlTable, ∀ r' ∈ controlTable, r.hits u cv = true → r'.hits u cv = true → r = r')

/-- Decoding and encoding agree both ways: an instruction is read back whole, with every operand and don't-care bit; and a
row word gives back its unit and its control vector, and the data words of a START row. -/
def Obligations.DecodeEncodeAgree : Prop :=
  (∀ i : Instr, decode (encode i) = i) ∧
  (∀ w : RowWord, (encode (decode w)).unit = w.unit ∧ (encode (decode w)).cv = w.cv ∧
    ((decode w).row = .rdStart ∨ (decode w).row = .nrdStart → encode (decode w) = w))

/-- Rule R84: an edge is read back from its encoding, which has one bit for each input, words in binary with bit `N-1` first;
and every list of that many bits is the encoding of an edge. -/
def Obligations.EdgeEncodingRoundTrip : Prop :=
  ∀ N : Nat,
    (∀ e : Edge N, e.bits.length = 4 * N + 3 ∧ Edge.ofBits N e.bits = .ok e) ∧
    (∀ bits : List Bool, bits.length = 4 * N + 3 → ∃ e : Edge N, Edge.ofBits N bits = .ok e ∧ e.bits = bits)

/-- Rules R51 and R81: a binary literal of `N` digits is the word with those digits, leading digit first; one of another
length is refused; a decimal literal is the word of that value when it fits, and is refused otherwise. -/
def Obligations.OperandLiterals : Prop :=
  ∀ N : Nat, 2 ≤ N →
    (∀ w : Word N, (Opnd.bin (wordBits w)).word N = .ok w) ∧
    (∀ digits : List Bool, digits.length ≠ N → (Opnd.bin digits).word N = .error .wrongDigitCount) ∧
    (∀ v : Int, -2 ^ (N - 1) ≤ v → v ≤ 2 ^ (N - 1) - 1 → ∃ w : Word N, (Opnd.dec v).word N = .ok w ∧ w.toInt = v) ∧
    (∀ v : Int, v < -2 ^ (N - 1) ∨ 2 ^ (N - 1) - 1 < v → (Opnd.dec v).word N = .error .decimalOutOfRange)

/-- Rules R82, R83 and R84: the edges each statement emits, for operands that the notation accepts; running a statement that
emits edges drives the machine through exactly these, ahead of any that the state already promises, and records their
encodings in order (an operand that the notation refuses, or an edge that the machine refuses, ends it under that name);
the expansions of the pseudo statements; `WAIT` on a unit that shows `done` emits no edge; and `EXPECT` passes exactly when
the unit shows the five values, and emits no edge. (That edges driven come before promised ones is log 17.) -/
def Obligations.StatementsEmitTheirEdges : Prop :=
  (∀ (N : Nat) (a b : Opnd) (x y : Word N), a.word N = .ok x → b.word N = .ok y →
    (Stmt.rdiv a b).edges N = .ok [⟨false, ⟨true, x, y⟩, ⟨false, 0, 0⟩⟩] ∧
    (Stmt.nrdiv a b).edges N = .ok [⟨false, ⟨false, 0, 0⟩, ⟨true, x, y⟩⟩] ∧
    (Stmt.div a b).edges N = .ok [⟨false, ⟨true, x, y⟩, ⟨true, x, y⟩⟩]) ∧
  (∀ N k : Nat, Stmt.reset.edges N = .ok [⟨true, ⟨false, 0, 0⟩, ⟨false, 0, 0⟩⟩] ∧
    (Stmt.tick k).edges N = .ok (List.replicate k ⟨false, ⟨false, 0, 0⟩, ⟨false, 0, 0⟩⟩)) ∧
  (∀ (a b : Opnd) (k : Nat), ∀ st ∈ [Stmt.reset, .rdiv a b, .nrdiv a b, .div a b, .tick k], ∀ r : Run,
    (∀ (es : List (Edge r.state.N)) (t : State), st.edges r.state.N = .ok es →
      run es.length { r.state with inputs := es ++ r.state.inputs } = .next t →
      runPlain st r = .ok ⟨t, r.emitted ++ es.map Edge.bits⟩) ∧
    (∀ (es : List (Edge r.state.N)) (e : Refusal), st.edges r.state.N = .ok es →
      run es.length { r.state with inputs := es ++ r.state.inputs } = .refused e → runPlain st r = .error (.stopped e)) ∧
    (∀ e : StimulusError, st.edges r.state.N = .error e → runPlain st r = .error e)) ∧
  (∀ a b : Opnd, (Stmt.rdivw a b).expand = [.rdiv a b, .wait .rd] ∧ (Stmt.nrdivw a b).expand = [.nrdiv a b, .wait .nrd] ∧
    (Stmt.divw a b).expand = [.div a b, .wait .rd, .wait .nrd]) ∧
  (∀ (id : UnitId) (r : Run), (r.state.outputs id).done = true → runPlain (.wait id) r = .ok r) ∧
  (∀ (id : UnitId) (r : Run) (a b : Opnd) (x y : Word r.state.N) (count : Nat) (e : ErrCode),
    a.word r.state.N = .ok x → b.word r.state.N = .ok y →
    (runPlain (.expect id a b count e) r = .ok r ↔
      (r.state.outputs id).done = true ∧ (r.state.outputs id).quotient = x ∧ (r.state.outputs id).remainder = y ∧
      (r.state.outputs id).opCount.toNat = count ∧ (r.state.outputs id).err = e.code) ∧
    (∀ r' : Run, runPlain (.expect id a b count e) r = .ok r' → r' = r))

/-! ## Operands and arithmetic -/

/-- Rule R71: exactly one word is not valid, `MINW`, whose value is `-2^(N-1)`. -/
def Obligations.OneInvalidWord : Prop :=
  ∀ N : Nat, 2 ≤ N →
    (minw N).toNat = 2 ^ (N - 1) ∧ (minw N).toInt = -2 ^ (N - 1) ∧
    ∀ w : Word N, ¬ IsOperand N w.toInt ↔ w = minw N

/-- Rule R72: the magnitude of every word, and of a valid one in particular. -/
def Obligations.MagnitudeOfWord : Prop :=
  ∀ (N : Nat) (w : Word N), 2 ≤ N →
    (w.toNat < 2 ^ (N - 1) → mag w = w) ∧
    (2 ^ (N - 1) ≤ w.toNat → mag w = BitVec.ofInt N (-w.toInt)) ∧
    (IsOperand N w.toInt →
      ((mag w).toNat : Int) = |w.toInt| ∧ (mag w).toNat < 2 ^ (N - 1) ∧ (mag w).getLsbD (N - 1) = false)

/-- Rule R163: the sign correction; a zero magnitude is zero under either sign. -/
def Obligations.SignCorrectionOfMagnitude : Prop :=
  ∀ (N : Nat) (m : Word N), 2 ≤ N → m.toNat < 2 ^ (N - 1) →
    fixSign m true = BitVec.ofInt N (-(m.toNat : Int)) ∧ fixSign m false = m ∧
    (fixSign m true).toInt = -(m.toNat : Int) ∧ (fixSign m false).toInt = m.toNat ∧
    fixSign (0 : Word N) true = 0

/-- Rule R161: the shift of an iteration is the left shift by one of the `2N+1`-bit double register. -/
def Obligations.ShiftOfDoubleRegister : Prop :=
  ∀ (N : Nat) (A : Acc N) (Q : Word N), 2 ≤ N →
    (shiftAcc A Q).toNat * 2 ^ N + (shiftQuo Q).toNat = 2 * (A.toNat * 2 ^ N + Q.toNat) % 2 ^ (2 * N + 1) ∧
    (shiftAcc A Q).getLsbD 0 = Q.getLsbD (N - 1) ∧ (shiftQuo Q).getLsbD 0 = false

/-- Rule R108: adding `M` back to the trial difference gives the shifted accumulator, which is what the restore keeps. -/
def Obligations.RestoreIsAddingBack : Prop :=
  ∀ (s t : State) (start : Bool), 2 ≤ s.N → exec (.rdIter start) s = .next t →
    2 ^ s.N ≤ (shiftAcc s.rd.A s.rd.Q - zextAcc s.rd.M).toNat →
    t.rd.A.toNat = ((shiftAcc s.rd.A s.rd.Q - zextAcc s.rd.M) + zextAcc s.rd.M).toNat

/-- Rule R138: for the values of a valid operation, the sign of `A` before the shift is the sign after it. -/
def Obligations.SignBeforeShiftIsSignAfter : Prop :=
  ∀ (N : Nat) (A : Acc N) (Q M : Word N), 2 ≤ N → M.toNat ≤ 2 ^ (N - 1) - 1 →
    -(M.toNat : Int) ≤ A.toInt → A.toInt ≤ M.toNat - 1 →
    (shiftAcc A Q).toInt = 2 * A.toInt + (Q.getLsbD (N - 1)).toNat ∧
    -(2 * M.toNat : Int) ≤ (shiftAcc A Q).toInt ∧ (shiftAcc A Q).toInt ≤ 2 * M.toNat - 1 ∧
    (shiftAcc A Q).getLsbD N = A.getLsbD N

/-- Rule R162: what follows for the truncating quotient and remainder. -/
def Obligations.TruncatingDivisionLaw : Prop :=
  ∀ (N : Nat) (x y : Int), 2 ≤ N → IsOperand N x → IsOperand N y → y ≠ 0 →
    x = quotOf x y * y + remOf x y ∧ |remOf x y| < |y| ∧
    (remOf x y = 0 ∨ (remOf x y < 0 ↔ x < 0)) ∧
    remOf x y = (if x < 0 then -(|x| % |y|) else |x| % |y|) ∧
    |quotOf x y| ≤ |x| ∧ IsOperand N (quotOf x y) ∧ IsOperand N (remOf x y)

/-! ## One edge -/

/-- Rules R9, R76 and R82: at an edge each unit applies the row that its own control vector decodes to. RD's row is applied
first (log 5); the host's record of the edge is then used up. -/
def Obligations.StepRunsDecodedRows : Prop :=
  ∀ (s : State) (i j : Instr), 2 ≤ s.N →
    decode ⟨.rd, controlVector s.nextEdge.rst s.rd.ph s.nextEdge.rd.start,
      s.nextEdge.rd.dividend.toNat, s.nextEdge.rd.divisor.toNat⟩ = i →
    decode ⟨.nrd, controlVector s.nextEdge.rst s.nrd.ph s.nextEdge.nrd.start,
      s.nextEdge.nrd.dividend.toNat, s.nextEdge.nrd.divisor.toNat⟩ = j →
    (∀ t r : State, exec i s = .next t → exec j t = .next r → step s = .next r.dropEdge) ∧
    (∀ e : Refusal, exec i s = .refused e → step s = .refused e)

/-- Rule R56: a row of one unit writes no register of the other, and no input and no width. -/
def Obligations.RowsWriteOnlyTheirUnit : Prop :=
  ∀ (i : Instr) (s t : State), exec i s = .next t →
    (i.unit = .rd → ∃ u : DivUnit s.N, t = s.setRd u) ∧ (i.unit = .nrd → ∃ u : DivUnit s.N, t = s.setNrd u)

/-- Rule R56: since the units share nothing, applying NRD's row before RD's gives the same edge (the model's order, log 5, is
not observable). -/
def Obligations.RowOrderIsUnobservable : Prop :=
  ∀ (i j : Instr) (s : State), i.unit = .rd → j.unit = .nrd →
    andThen (exec i s) (exec j) = andThen (exec j s) (exec i)

/-- When a step is refused (rules R5 and R103, U14 and U9; logs 8 and 9): exactly for a width below 2, or for RD in the
reserved phase at an edge without reset. That it never faults is the model's choice of an empty type `Fault` (log 10, from
rules R200, R203 and R205): the errors of the core are next states. -/
def Obligations.StepRefusedExactlyWhen : Prop :=
  ∀ s : State,
    ((∃ t : State, step s = .next t) ∨ ∃ r : Refusal, step s = .refused r) ∧
    (∀ r : Refusal, step s = .refused r ↔
      (s.N < 2 ∧ r = .widthBelowTwo) ∨
      (2 ≤ s.N ∧ s.nextEdge.rst = false ∧ s.rd.ph = .corr ∧ r = .rdReservedPhase))

/-- E1: no step changes the width. -/
def Obligations.WidthNeverChanges : Prop :=
  ∀ s t : State, step s = .next t → t.N = s.N

/-- Rule R231: a reset edge, in any phase of either unit and whatever the other inputs are, leaves each unit idle with every
output 0; the edge is never refused. -/
def Obligations.ResetEdgeAbandonsEverything : Prop :=
  ∀ (N : Nat) (rd nrd : DivUnit N) (e : Edge N) (rest : List (Edge N)), 2 ≤ N → e.rst = true →
    ∃ rd' nrd' : DivUnit N, step ⟨N, rd, nrd, e :: rest⟩ = .next ⟨N, rd', nrd', rest⟩ ∧
      rd'.outputs = ⟨false, false, 0b00#2, 0, 0, 0⟩ ∧ nrd'.outputs = ⟨false, false, 0b00#2, 0, 0, 0⟩

/-- Rules R235 and R53: at an edge without reset where a unit is busy, or does not see `start`, its operand inputs do not
matter; where it is busy, its `start` does not matter either. Nothing about the dropped request is remembered: the whole
states agree. (At a reset edge no input but `rst` matters: `ResetEdgeAbandonsEverything`.) -/
def Obligations.InputsMatterOnlyAtAcceptingEdge : Prop :=
  ∀ (N : Nat) (rd nrd : DivUnit N) (a a' b b' : UnitIn N) (rest : List (Edge N)),
    rd.ph ≠ .idle ∨ (a.start = false ∧ a'.start = false) →
    nrd.ph ≠ .idle ∨ (b.start = false ∧ b'.start = false) →
    step ⟨N, rd, nrd, ⟨false, a, b⟩ :: rest⟩ = step ⟨N, rd, nrd, ⟨false, a', b'⟩ :: rest⟩

/-- Rule R54: at an edge that is no reset edge, a unit in ITER or CORR, or idle without `start`, keeps `done`, `err` and the
three result words; an accepting edge that finds no error clears `done` and `err` and keeps the three result words. -/
def Obligations.OutputsChangeTogether : Prop :=
  ∀ (N : Nat) (rd nrd rd' nrd' : DivUnit N) (e : Edge N) (rest rest' : List (Edge N)),
    e.rst = false → step ⟨N, rd, nrd, e :: rest⟩ = .next ⟨N, rd', nrd', rest'⟩ →
    ((rd.ph = .iter ∨ (rd.ph = .idle ∧ e.rd.start = false)) →
      rd'.outputs = { rd.outputs with busy := rd'.outputs.busy }) ∧
    ((nrd.ph = .iter ∨ nrd.ph = .corr ∨ (nrd.ph = .idle ∧ e.nrd.start = false)) →
      nrd'.outputs = { nrd.outputs with busy := nrd'.outputs.busy }) ∧
    (rd.ph = .idle → e.rd.start = true → chk e.rd.dividend e.rd.divisor = .none →
      rd'.outputs = { rd.outputs with busy := true, done := false, err := 0b00#2 }) ∧
    (nrd.ph = .idle → e.nrd.start = true → chk e.nrd.dividend e.nrd.divisor = .none →
      nrd'.outputs = { nrd.outputs with busy := true, done := false, err := 0b00#2 })

/-- Rules R30 and R75: the outputs as functions of the registers, with the codes of the errors. -/
def Obligations.OutputsOfRegisters : Prop :=
  ∀ (N : Nat) (u : DivUnit N),
    (u.outputs.busy = true ↔ u.ph.code ≠ 0b00#2) ∧ u.outputs.done = u.doneR ∧ u.outputs.quotient = u.quoR ∧
    u.outputs.remainder = u.remR ∧ u.outputs.opCount = u.cntR ∧
    (u.errR = .none → u.outputs.err = 0b00#2) ∧ (u.errR = .divByZero → u.outputs.err = 0b01#2) ∧
    (u.errR = .widthOverflow → u.outputs.err = 0b10#2) ∧ (u.errR = .reserved → u.outputs.err = 0b11#2)

/-! ## Invariants -/

/-- The state right after reset is good, at every legal width. -/
def Obligations.ResetStateIsGood : Prop :=
  State.reset.Inv ∧ ∀ N : Nat, 2 ≤ N → (State.resetAt N).Inv

/-- Rules R164, R165, R166, R103, R27 as one invariant (`State.Inv`): every edge from a good state leads to a good state,
whatever the inputs and whatever the reset draws are. -/
def Obligations.EveryEdgeKeepsGoodState : Prop :=
  ∀ s t : State, s.Inv → step s = .next t → t.Inv

/-- Rules R9 and R205: from a good state every edge has a next state. -/
def Obligations.GoodStateAlwaysSteps : Prop :=
  ∀ s : State, s.Inv → ∃ t : State, step s = .next t

/-- Rule R160: in a good state every working value of an operation in progress is in the range of the rule's table, and each
shift, addition and subtraction gives its value as integers do, so that no reduction changes a value's meaning. NRD stands
in CORR after its last iteration (the table's row "`A` after START or any ITER"). -/
def Obligations.WorkingValuesInRange : Prop :=
  ∀ s : State, s.Inv →
    (s.rd.Q.toNat ≤ 2 ^ s.N - 1 ∧ s.nrd.Q.toNat ≤ 2 ^ s.N - 1) ∧
    (s.rd.ph = .iter →
      let As : Acc s.N := shiftAcc s.rd.A s.rd.Q
      let D : Acc s.N := As - zextAcc s.rd.M
      (0 : Int) ≤ s.rd.A.toInt ∧ s.rd.A.toInt ≤ s.rd.M.toNat - 1 ∧
      As.toInt = 2 * s.rd.A.toInt + (s.rd.Q.getLsbD (s.N - 1)).toNat ∧ 0 ≤ As.toInt ∧ As.toInt ≤ 2 * s.rd.M.toNat - 1 ∧
      D.toInt = As.toInt - s.rd.M.toNat ∧ -(s.rd.M.toNat : Int) ≤ D.toInt ∧ D.toInt ≤ s.rd.M.toNat - 1 ∧
      s.rd.i.toNat ≤ s.N - 1 ∧ s.rd.cnt.toNat ≤ s.N) ∧
    (s.nrd.ph = .iter →
      let As : Acc s.N := shiftAcc s.nrd.A s.nrd.Q
      let An : Acc s.N := if signFlag s.nrd.A then As + zextAcc s.nrd.M else As - zextAcc s.nrd.M
      s.nrd.A.toInt ≥ -(s.nrd.M.toNat : Int) ∧ s.nrd.A.toInt ≤ s.nrd.M.toNat - 1 ∧
      As.toInt = 2 * s.nrd.A.toInt + (s.nrd.Q.getLsbD (s.N - 1)).toNat ∧
      -(2 * s.nrd.M.toNat : Int) ≤ As.toInt ∧ As.toInt ≤ 2 * s.nrd.M.toNat - 1 ∧
      An.toInt = (if signFlag s.nrd.A then As.toInt + s.nrd.M.toNat else As.toInt - s.nrd.M.toNat) ∧
      -(s.nrd.M.toNat : Int) ≤ An.toInt ∧ An.toInt ≤ s.nrd.M.toNat - 1 ∧
      s.nrd.i.toNat ≤ s.N - 1 ∧ s.nrd.cnt.toNat ≤ s.N) ∧
    (s.nrd.ph = .corr →
      -(s.nrd.M.toNat : Int) ≤ s.nrd.A.toInt ∧ s.nrd.A.toInt ≤ s.nrd.M.toNat - 1 ∧ s.nrd.cnt.toNat = s.N) ∧
    (s.rd.ph = .fix → 0 ≤ s.rd.A.toInt ∧ s.rd.A.toInt ≤ s.rd.M.toNat - 1 ∧ s.rd.cnt.toNat = s.N) ∧
    (s.nrd.ph = .fix → 0 ≤ s.nrd.A.toInt ∧ s.nrd.A.toInt ≤ s.nrd.M.toNat - 1 ∧ s.nrd.cnt.toNat ≤ s.N + 1)

/-! ## Whole operations -/

/-- Rules R106 and R107, with the latency of rule R239: an operation that RD accepts without error, and that no reset
interrupts, is busy after each of the next `N + 1` edges and shows the truncating quotient and remainder with the count `N`
after `N + 2` edges, counting the accepting one. NRD may be in any state and the other inputs may be anything. -/
def Obligations.RdDivides : Prop :=
  ∀ s : State, 2 ≤ s.N → s.rd.ph = .idle → s.NoReset (s.N + 2) → (s.edgeAt 0).rd.start = true →
    IsOperand s.N (s.edgeAt 0).rd.dividend.toInt → IsOperand s.N (s.edgeAt 0).rd.divisor.toInt →
    (s.edgeAt 0).rd.divisor.toInt ≠ 0 →
    (∀ k : Nat, 1 ≤ k → k ≤ s.N + 1 →
      ∃ t : State, run k s = .next t ∧ t.rd.outputs.busy = true ∧ t.rd.outputs.done = false) ∧
    ∃ t : State, run (s.N + 2) s = .next t ∧ t.N = s.N ∧
      t.rd.outputs.busy = false ∧ t.rd.outputs.done = true ∧ t.rd.outputs.err = 0b00#2 ∧
      t.rd.outputs.quotient.toInt = quotOf (s.edgeAt 0).rd.dividend.toInt (s.edgeAt 0).rd.divisor.toInt ∧
      t.rd.outputs.remainder.toInt = remOf (s.edgeAt 0).rd.dividend.toInt (s.edgeAt 0).rd.divisor.toInt ∧
      t.rd.outputs.opCount.toNat = s.N

/-- Rules R136, R137 and R167, with the latency of rule R239: an operation that NRD accepts without error, and that no reset
interrupts, is busy after each of the next `N + 2` edges and shows the truncating quotient and remainder, with the count
`N + 1` when the quotient is even and `N` when it is odd, after `N + 3` edges, counting the accepting one. RD must not be in
its reserved phase, in which no edge is defined. -/
def Obligations.NrdDivides : Prop :=
  ∀ s : State, 2 ≤ s.N → s.rd.ph ≠ .corr → s.nrd.ph = .idle → s.NoReset (s.N + 3) → (s.edgeAt 0).nrd.start = true →
    IsOperand s.N (s.edgeAt 0).nrd.dividend.toInt → IsOperand s.N (s.edgeAt 0).nrd.divisor.toInt →
    (s.edgeAt 0).nrd.divisor.toInt ≠ 0 →
    (∀ k : Nat, 1 ≤ k → k ≤ s.N + 2 →
      ∃ t : State, run k s = .next t ∧ t.nrd.outputs.busy = true ∧ t.nrd.outputs.done = false) ∧
    ∃ t : State, run (s.N + 3) s = .next t ∧ t.N = s.N ∧
      t.nrd.outputs.busy = false ∧ t.nrd.outputs.done = true ∧ t.nrd.outputs.err = 0b00#2 ∧
      t.nrd.outputs.quotient.toInt = quotOf (s.edgeAt 0).nrd.dividend.toInt (s.edgeAt 0).nrd.divisor.toInt ∧
      t.nrd.outputs.remainder.toInt = remOf (s.edgeAt 0).nrd.dividend.toInt (s.edgeAt 0).nrd.divisor.toInt ∧
      t.nrd.outputs.opCount.toNat =
        s.N + 1 - (|(s.edgeAt 0).nrd.dividend.toInt| / |(s.edgeAt 0).nrd.divisor.toInt| % 2).toNat

/-- Rules R105 and R164: the path of an operation that RD accepts without error and no reset interrupts, and the loop
invariant along it. After the accepting edge and `k` iterations (`k` from 0 to `N`), `i` is `k` (0 after the last one), and
`A` and `Q` hold the remainder and the quotient of the top `k` bits `Dk` of the dividend magnitude, with the dividend bits
not yet shifted out above the quotient in `Q`. After iteration `N` the unit is at FIX, and one edge later it is idle. -/
def Obligations.RdPathAndLoopInvariant : Prop :=
  ∀ s : State, 2 ≤ s.N → s.rd.ph = .idle → s.NoReset (s.N + 2) → (s.edgeAt 0).rd.start = true →
    IsOperand s.N (s.edgeAt 0).rd.dividend.toInt → IsOperand s.N (s.edgeAt 0).rd.divisor.toInt →
    (s.edgeAt 0).rd.divisor.toInt ≠ 0 →
    let Dv : Nat := (s.edgeAt 0).rd.dividend.toInt.natAbs
    let M : Nat := (s.edgeAt 0).rd.divisor.toInt.natAbs
    (∀ k : Nat, k ≤ s.N → ∃ t : State, run (k + 1) s = .next t ∧
      t.rd.ph = (if k = s.N then .fix else .iter) ∧ t.rd.i.toNat = k % s.N ∧
      t.rd.A.toNat = (Dv / 2 ^ (s.N - k)) % M ∧ signFlag t.rd.A = false ∧
      t.rd.Q.toNat = Dv * 2 ^ k % 2 ^ s.N + (Dv / 2 ^ (s.N - k)) / M) ∧
    ∃ t : State, run (s.N + 2) s = .next t ∧ t.rd.ph = .idle

/-- Rules R135 and R165: the path of an operation that NRD accepts without error and no reset interrupts, and the loop
invariant along it: `Q` as in RD (rule R164), and `A` the remainder so far, less `M` when the last quotient bit is 0. After
iteration `N` the unit is at CORR, then at FIX with the whole remainder in `A`, then idle. RD must not be in its reserved
phase, in which no edge is defined. -/
def Obligations.NrdPathAndLoopInvariant : Prop :=
  ∀ s : State, 2 ≤ s.N → s.rd.ph ≠ .corr → s.nrd.ph = .idle → s.NoReset (s.N + 3) → (s.edgeAt 0).nrd.start = true →
    IsOperand s.N (s.edgeAt 0).nrd.dividend.toInt → IsOperand s.N (s.edgeAt 0).nrd.divisor.toInt →
    (s.edgeAt 0).nrd.divisor.toInt ≠ 0 →
    let Dv : Nat := (s.edgeAt 0).nrd.dividend.toInt.natAbs
    let M : Nat := (s.edgeAt 0).nrd.divisor.toInt.natAbs
    (∀ k : Nat, k ≤ s.N → ∃ t : State, run (k + 1) s = .next t ∧
      t.nrd.ph = (if k = s.N then .corr else .iter) ∧ t.nrd.i.toNat = k % s.N ∧
      t.nrd.Q.toNat = Dv * 2 ^ k % 2 ^ s.N + (Dv / 2 ^ (s.N - k)) / M ∧
      t.nrd.A.toInt = (if k = 0 then 0 else
        if t.nrd.Q.getLsbD 0 then ((Dv / 2 ^ (s.N - k) % M : Nat) : Int) else ((Dv / 2 ^ (s.N - k) % M : Nat) : Int) - M) ∧
      (1 ≤ k → (signFlag t.nrd.A = true ↔ t.nrd.Q.getLsbD 0 = false)) ∧
      -(M : Int) ≤ t.nrd.A.toInt ∧ t.nrd.A.toInt ≤ M - 1) ∧
    (∃ t : State, run (s.N + 2) s = .next t ∧ t.nrd.ph = .fix ∧ t.nrd.A.toNat = Dv % M ∧ signFlag t.nrd.A = false) ∧
    ∃ t : State, run (s.N + 3) s = .next t ∧ t.nrd.ph = .idle

/-- Rule R168: two units that accept the same operand words at the same edge show the same error; without an error they show
the same quotient and the same remainder, each after its own latency. -/
def Obligations.UnitsAgree : Prop :=
  ∀ (N : Nat) (rd nrd : DivUnit N) (op : UnitIn N) (rest : List (Edge N)), 2 ≤ N → rd.ph = .idle → nrd.ph = .idle →
    op.start = true → (∀ e ∈ rest, e.rst = false) →
    (chk op.dividend op.divisor ≠ .none →
      ∃ rd' nrd' : DivUnit N, run 1 ⟨N, rd, nrd, ⟨false, op, op⟩ :: rest⟩ = .next ⟨N, rd', nrd', rest⟩ ∧
        rd'.outputs = nrd'.outputs ∧ rd'.outputs.err = (chk op.dividend op.divisor).code) ∧
    (chk op.dividend op.divisor = .none →
      ∃ rd' nrd' rd'' nrd'' : DivUnit N,
        run (N + 2) ⟨N, rd, nrd, ⟨false, op, op⟩ :: rest⟩ = .next ⟨N, rd', nrd', rest.drop (N + 1)⟩ ∧
        run (N + 3) ⟨N, rd, nrd, ⟨false, op, op⟩ :: rest⟩ = .next ⟨N, rd'', nrd'', rest.drop (N + 2)⟩ ∧
        rd'.outputs.done = true ∧ nrd''.outputs.done = true ∧ rd'.outputs.err = nrd''.outputs.err ∧
        rd'.outputs.quotient = nrd''.outputs.quotient ∧ rd'.outputs.remainder = nrd''.outputs.remainder)

/-- Rule R56: after any number of edges, a unit's phase and outputs, and as long as no reset has come all its registers,
depend only on its own registers, its own inputs and `rst`: whatever the other unit holds and is given, they are the same.
(After a reset edge the working registers are fresh draws, rule R32, of which nothing is said.) -/
def Obligations.UnitsDoNotInterfere : Prop :=
  ∀ (N k : Nat) (rd nrd rd₀ nrd₀ : DivUnit N) (ins ins₀ : List (Edge N)), 2 ≤ N → rd.ph ≠ .corr → rd₀.ph ≠ .corr →
    ((∀ j : Nat, ((ins.drop j).headD (Edge.quiet N)).rst = ((ins₀.drop j).headD (Edge.quiet N)).rst ∧
        ((ins.drop j).headD (Edge.quiet N)).rd = ((ins₀.drop j).headD (Edge.quiet N)).rd) →
      ∃ rd' nrd' rd'' nrd'' : DivUnit N, run k ⟨N, rd, nrd, ins⟩ = .next ⟨N, rd', nrd', ins.drop k⟩ ∧
        run k ⟨N, rd, nrd₀, ins₀⟩ = .next ⟨N, rd'', nrd'', ins₀.drop k⟩ ∧
        rd'.ph = rd''.ph ∧ rd'.outputs = rd''.outputs ∧
        (State.NoReset ⟨N, rd, nrd, ins⟩ k → rd' = rd'')) ∧
    ((∀ j : Nat, ((ins.drop j).headD (Edge.quiet N)).rst = ((ins₀.drop j).headD (Edge.quiet N)).rst ∧
        ((ins.drop j).headD (Edge.quiet N)).nrd = ((ins₀.drop j).headD (Edge.quiet N)).nrd) →
      ∃ rd' nrd' rd'' nrd'' : DivUnit N, run k ⟨N, rd, nrd, ins⟩ = .next ⟨N, rd', nrd', ins.drop k⟩ ∧
        run k ⟨N, rd₀, nrd, ins₀⟩ = .next ⟨N, rd'', nrd'', ins₀.drop k⟩ ∧
        nrd'.ph = nrd''.ph ∧ nrd'.outputs = nrd''.outputs ∧
        (State.NoReset ⟨N, rd, nrd, ins⟩ k → nrd' = nrd''))

/-- Rules R32, R33 and R170: two machines with idle units that show the same outputs, but hold anything in `A`, `Q`, `M`, `i`,
`cnt`, `sq`, `sr` (and have drawn any number of reset values), show the same outputs after any number of edges with the same
inputs, resets among them: nothing left from before an operation, and no reset draw, reaches an output. -/
def Obligations.LeftoversNeverShow : Prop :=
  ∀ (N k : Nat) (rd nrd rd₀ nrd₀ : DivUnit N) (ins : List (Edge N)), 2 ≤ N →
    rd.ph = .idle → rd₀.ph = .idle → nrd.ph = .idle → nrd₀.ph = .idle →
    rd.outputs = rd₀.outputs → nrd.outputs = nrd₀.outputs →
    ∃ rd' nrd' rd'' nrd'' : DivUnit N, run k ⟨N, rd, nrd, ins⟩ = .next ⟨N, rd', nrd', ins.drop k⟩ ∧
      run k ⟨N, rd₀, nrd₀, ins⟩ = .next ⟨N, rd'', nrd'', ins.drop k⟩ ∧
      rd'.outputs = rd''.outputs ∧ nrd'.outputs = nrd''.outputs

/-- Rule R243: in a good state, an operation in progress ends within the latency of rule R239 unless a reset edge comes first:
RD is idle after at most `N + 1` further edges, and NRD after at most `N + 2`. -/
def Obligations.BusyUnitsFinish : Prop :=
  ∀ s : State, s.Inv →
    (s.rd.ph ≠ .idle → s.NoReset (s.N + 1) → ∃ k : Nat, k ≤ s.N + 1 ∧ ∃ t : State, run k s = .next t ∧
      t.rd.outputs.busy = false ∧ t.rd.outputs.done = true ∧ t.rd.outputs.err = 0b00#2) ∧
    (s.nrd.ph ≠ .idle → s.NoReset (s.N + 2) → ∃ k : Nat, k ≤ s.N + 2 ∧ ∃ t : State, run k s = .next t ∧
      t.nrd.outputs.busy = false ∧ t.nrd.outputs.done = true ∧ t.nrd.outputs.err = 0b00#2)

/-- Rules R82 and R243: in a good state, `WAIT` on a busy unit ends, having emitted only edges of 0, at most `N + 2` of them,
with `done` shown. (That is why the bound of the model's `runWait`, log 17, cuts no wait short.) -/
def Obligations.WaitOnBusyUnitEnds : Prop :=
  ∀ (id : UnitId) (r : Run), r.state.Inv → (r.state.outputs id).busy = true →
    ∃ (r' : Run) (k : Nat), runPlain (.wait id) r = .ok r' ∧ 1 ≤ k ∧ k ≤ r.state.N + 2 ∧
      r'.emitted = r.emitted ++ List.replicate k (Edge.quiet r.state.N).bits ∧ r'.state.N = r.state.N ∧
      (r'.state.outputs id).done = true ∧ (r'.state.outputs id).err = 0b00#2

/-- Rules R83 and R84: a program starts from the given state with nothing emitted; it runs as its expansion does; and a
statement that is no pseudo statement, at its end, is run from where the statements before it have come, or not at all where
one of them has failed. -/
def Obligations.ProgramsRunTheirStatements : Prop :=
  ∀ (program : List Stmt) (s : State),
    runProgram [] s = .ok ⟨s, []⟩ ∧
    runProgram program s = runProgram (program.flatMap Stmt.expand) s ∧
    (∀ st : Stmt, st.expand = [st] →
      (∀ r : Run, runProgram program s = .ok r → runProgram (program ++ [st]) s = runPlain st r) ∧
      (∀ e : StimulusError, runProgram program s = .error e → runProgram (program ++ [st]) s = .error e))
end

