-- ==== Sys2Proof/Laws/State.lean ====
section
/-! SUPPORT. One lemma per field per update of State, and the fields of the shared updates of a unit. -/

namespace Sys2Proof.Machine

@[simp] theorem State.setRd_N (s : State) (u : DivUnit s.N) : (s.setRd u).N = s.N := rfl
@[simp] theorem State.setRd_rd (s : State) (u : DivUnit s.N) : (s.setRd u).rd = u := rfl
@[simp] theorem State.setRd_nrd (s : State) (u : DivUnit s.N) : (s.setRd u).nrd = s.nrd := rfl
@[simp] theorem State.setRd_inputs (s : State) (u : DivUnit s.N) : (s.setRd u).inputs = s.inputs := rfl
@[simp] theorem State.setNrd_N (s : State) (u : DivUnit s.N) : (s.setNrd u).N = s.N := rfl
@[simp] theorem State.setNrd_rd (s : State) (u : DivUnit s.N) : (s.setNrd u).rd = s.rd := rfl
@[simp] theorem State.setNrd_nrd (s : State) (u : DivUnit s.N) : (s.setNrd u).nrd = u := rfl
@[simp] theorem State.setNrd_inputs (s : State) (u : DivUnit s.N) : (s.setNrd u).inputs = s.inputs := rfl
@[simp] theorem State.dropEdge_N (s : State) : s.dropEdge.N = s.N := rfl
@[simp] theorem State.dropEdge_rd (s : State) : s.dropEdge.rd = s.rd := rfl
@[simp] theorem State.dropEdge_nrd (s : State) : s.dropEdge.nrd = s.nrd := rfl
@[simp] theorem State.dropEdge_inputs (s : State) : s.dropEdge.inputs = s.inputs.tail := rfl

variable {N : Nat} (u : DivUnit N)

@[simp] theorem DivUnit.countOne_ph : u.countOne.ph = u.ph := rfl
@[simp] theorem DivUnit.countOne_A : u.countOne.A = u.A := rfl
@[simp] theorem DivUnit.countOne_Q : u.countOne.Q = u.Q := rfl
@[simp] theorem DivUnit.countOne_M : u.countOne.M = u.M := rfl
@[simp] theorem DivUnit.countOne_i : u.countOne.i = u.i := rfl
@[simp] theorem DivUnit.countOne_cnt : u.countOne.cnt = u.cnt + 1 := rfl
@[simp] theorem DivUnit.countOne_sq : u.countOne.sq = u.sq := rfl
@[simp] theorem DivUnit.countOne_sr : u.countOne.sr = u.sr := rfl
@[simp] theorem DivUnit.countOne_doneR : u.countOne.doneR = u.doneR := rfl
@[simp] theorem DivUnit.countOne_errR : u.countOne.errR = u.errR := rfl
@[simp] theorem DivUnit.countOne_quoR : u.countOne.quoR = u.quoR := rfl
@[simp] theorem DivUnit.countOne_remR : u.countOne.remR = u.remR := rfl
@[simp] theorem DivUnit.countOne_cntR : u.countOne.cntR = u.cntR := rfl
@[simp] theorem DivUnit.countOne_draws : u.countOne.draws = u.draws := rfl

variable (exit : Phase)

@[simp] theorem DivUnit.endIteration_A : (u.endIteration exit).A = u.A := by unfold endIteration; split <;> rfl
@[simp] theorem DivUnit.endIteration_Q : (u.endIteration exit).Q = u.Q := by unfold endIteration; split <;> rfl
@[simp] theorem DivUnit.endIteration_M : (u.endIteration exit).M = u.M := by unfold endIteration; split <;> rfl
@[simp] theorem DivUnit.endIteration_cnt : (u.endIteration exit).cnt = u.cnt := by unfold endIteration; split <;> rfl
@[simp] theorem DivUnit.endIteration_sq : (u.endIteration exit).sq = u.sq := by unfold endIteration; split <;> rfl
@[simp] theorem DivUnit.endIteration_sr : (u.endIteration exit).sr = u.sr := by unfold endIteration; split <;> rfl
@[simp] theorem DivUnit.endIteration_doneR : (u.endIteration exit).doneR = u.doneR := by
  unfold endIteration; split <;> rfl
@[simp] theorem DivUnit.endIteration_errR : (u.endIteration exit).errR = u.errR := by
  unfold endIteration; split <;> rfl
@[simp] theorem DivUnit.endIteration_quoR : (u.endIteration exit).quoR = u.quoR := by
  unfold endIteration; split <;> rfl
@[simp] theorem DivUnit.endIteration_remR : (u.endIteration exit).remR = u.remR := by
  unfold endIteration; split <;> rfl
@[simp] theorem DivUnit.endIteration_cntR : (u.endIteration exit).cntR = u.cntR := by
  unfold endIteration; split <;> rfl
@[simp] theorem DivUnit.endIteration_draws : (u.endIteration exit).draws = u.draws := by
  unfold endIteration; split <;> rfl

theorem DivUnit.endIteration_ph : (u.endIteration exit).ph = if u.i.toNat = N - 1 then exit else u.ph := by
  unfold endIteration; split <;> rfl

/-- The last iteration leaves ITER and clears `i`. -/
theorem DivUnit.endIteration_last (h : u.i.toNat = N - 1) :
    (u.endIteration exit).i = 0 ∧ (u.endIteration exit).ph = exit := by
  simp [endIteration, h]

/-- Any other iteration stays in its phase and counts up `i`. -/
theorem DivUnit.endIteration_more (h : u.i.toNat ≠ N - 1) :
    (u.endIteration exit).i = u.i + 1 ∧ (u.endIteration exit).ph = u.ph := by
  simp [endIteration, h]

end Sys2Proof.Machine
end

