-- ==== Sys2Proof/Laws/Ops.lean ====
section
/-! SUPPORT. What each shared operation computes, in natural numbers and integers: the forms that rules R6, R7, R71, R72,
R102, R132, R161, R163 and R201 use. -/

namespace Sys2Proof.Machine

variable {N : Nat}

theorem lt_two_pow_bitlength (x : Nat) : x < 2 ^ bitlength x := by
  unfold bitlength
  split
  · simp_all
  · exact Nat.lt_log2_self

/-- The counter `i` holds every iteration number. -/
theorem pred_lt_two_pow_IW (N : Nat) : N - 1 < 2 ^ IW N :=
  lt_of_lt_of_le (lt_two_pow_bitlength (N - 1)) (Nat.pow_le_pow_right (by decide) (Nat.le_max_right _ _))

/-- The counter `cnt` holds every count (rule R26). -/
theorem succ_lt_two_pow_CW (N : Nat) : N + 1 < 2 ^ CW N := lt_two_pow_bitlength (N + 1)

theorem two_pow_pred (h : 1 ≤ N) : 2 ^ N = 2 * 2 ^ (N - 1) := by
  rw [← pow_succ']; congr 1; omega

theorem zextAcc_toNat (w : Word N) : (zextAcc w).toNat = w.toNat := by
  unfold zextAcc
  rw [BitVec.toNat_setWidth]
  exact Nat.mod_eq_of_lt (lt_trans w.isLt (by rw [pow_succ]; have := Nat.two_pow_pos N; omega))

theorem bitWord_toNat {w : Nat} (hw : 1 ≤ w) (b : Bool) : (bitWord w b).toNat = b.toNat := by
  unfold bitWord
  have : 2 ≤ 2 ^ w := by calc 2 = 2 ^ 1 := rfl
    _ ≤ 2 ^ w := Nat.pow_le_pow_right (by decide) hw
  cases b
  · simp
  · simpa using Nat.mod_eq_of_lt (show 1 < 2 ^ w by omega)

/-- Setting bit 0 of an even word adds one. -/
theorem even_or_bitWord {w : Nat} (hw : 1 ≤ w) (v : BitVec w) (b : Bool) :
    ((v <<< 1) ||| bitWord w b).toNat = 2 * v.toNat % 2 ^ w + b.toNat := by
  rw [BitVec.toNat_or, bitWord_toNat hw, BitVec.toNat_shiftLeft, Nat.shiftLeft_eq]
  obtain ⟨n, rfl⟩ : ∃ n, w = n + 1 := ⟨w - 1, by omega⟩
  have h : v.toNat * 2 ^ 1 % 2 ^ (n + 1) = 2 * (v.toNat % 2 ^ n) := by
    rw [pow_one, Nat.mul_comm, pow_succ', Nat.mul_mod_mul_left]
  rw [show 2 * v.toNat = v.toNat * 2 ^ 1 by omega, h]
  cases b
  · simp
  · have := Nat.shiftLeft_add_eq_or_of_lt (b := 1) (i := 1) (by decide) (v.toNat % 2 ^ n)
    rw [Nat.shiftLeft_eq, pow_one, Nat.mul_comm] at this
    exact this.symm

theorem topBit_toNat (h : 1 ≤ N) (Q : Word N) : (Q.getLsbD (N - 1)).toNat = Q.toNat / 2 ^ (N - 1) := by
  rw [BitVec.getLsbD, Nat.testBit_eq_decide_div_mod_eq]
  have h1 := Q.isLt
  rw [two_pow_pred h] at h1
  have h2 : Q.toNat / 2 ^ (N - 1) < 2 := Nat.div_lt_of_lt_mul (by omega)
  rcases Nat.le_one_iff_eq_zero_or_eq_one.1 (Nat.le_of_lt_succ h2) with h | h <;> simp [h]

/-- Rule R102: `As` as a number. -/
theorem shiftAcc_toNat (h : 1 ≤ N) (A : Acc N) (Q : Word N) :
    (shiftAcc A Q).toNat = (2 * A.toNat + Q.toNat / 2 ^ (N - 1)) % 2 ^ (N + 1) := by
  unfold shiftAcc
  rw [even_or_bitWord (by omega), topBit_toNat h]
  have h1 := Q.isLt
  rw [two_pow_pred h] at h1
  have h2 : Q.toNat / 2 ^ (N - 1) < 2 := Nat.div_lt_of_lt_mul (by omega)
  rw [pow_succ']
  have := Nat.two_pow_pos N
  generalize Q.toNat / 2 ^ (N - 1) = q at *
  have h4 : 2 * A.toNat + q = 2 * (A.toNat % 2 ^ N) + q + 2 * 2 ^ N * (A.toNat / 2 ^ N) := by
    conv_lhs => rw [← Nat.div_add_mod A.toNat (2 ^ N)]
    ring
  have h5 := Nat.mod_lt A.toNat (Nat.two_pow_pos N)
  rw [h4, Nat.add_mul_mod_self_left, Nat.mul_mod_mul_left]
  exact (Nat.mod_eq_of_lt (by omega)).symm

theorem shiftQuo_toNat (Q : Word N) : (shiftQuo Q).toNat = 2 * Q.toNat % 2 ^ N := by
  unfold shiftQuo
  rw [BitVec.toNat_shiftLeft, Nat.shiftLeft_eq, pow_one, Nat.mul_comm]

theorem recordBit_shiftQuo_toNat (h : 1 ≤ N) (Q : Word N) (b : Bool) :
    (recordBit (shiftQuo Q) b).toNat = 2 * Q.toNat % 2 ^ N + b.toNat :=
  even_or_bitWord h Q b

/-- Rule R24: the sign flag says that the value is negative. -/
theorem signFlag_iff_toNat (v : Acc N) : signFlag v = true ↔ 2 ^ N ≤ v.toNat := by
  have h := v.isLt
  unfold signFlag
  rw [BitVec.getLsbD, Nat.testBit_eq_decide_div_mod_eq, decide_eq_true_iff]
  have h2 : v.toNat / 2 ^ N < 2 := Nat.div_lt_of_lt_mul (by rw [pow_succ] at h; exact h)
  rw [Nat.mod_eq_of_lt h2]
  constructor
  · intro h3
    by_contra h4
    rw [Nat.div_eq_of_lt (by omega)] at h3
    omega
  · intro h3
    have : 1 ≤ v.toNat / 2 ^ N := (Nat.one_le_div_iff (Nat.two_pow_pos N)).2 h3
    omega

theorem signFlag_iff_toInt (v : Acc N) : signFlag v = true ↔ v.toInt < 0 := by
  rw [signFlag_iff_toNat, BitVec.toInt_eq_toNat_cond]
  have h := v.isLt
  rw [pow_succ] at h ⊢
  split <;> omega

theorem signFlag_eq_decide (v : Acc N) : signFlag v = decide (v.toInt < 0) := by
  rw [Bool.eq_iff_iff, signFlag_iff_toInt, decide_eq_true_iff]

theorem signBit_eq_decide (h : 1 ≤ N) (w : Word N) : signBit w = decide (w.toInt < 0) := by
  obtain ⟨n, rfl⟩ : ∃ n, N = n + 1 := ⟨N - 1, by omega⟩
  exact signFlag_eq_decide (N := n) w

/-- Rule R7: the value of a word in terms of its number. -/
theorem toInt_of_nonneg (h : 1 ≤ N) (w : Word N) (hw : w.toNat < 2 ^ (N - 1)) : w.toInt = w.toNat := by
  rw [BitVec.toInt_eq_toNat_cond, if_pos]
  rw [two_pow_pred h]
  omega

theorem minw_toNat (h : 1 ≤ N) : (minw N).toNat = 2 ^ (N - 1) := by
  unfold minw
  rw [BitVec.toNat_twoPow, Nat.mod_eq_of_lt (Nat.pow_lt_pow_right (by decide) (by omega))]

/-- Rule R71: the valid words are exactly those other than `MINW`. -/
theorem ne_minw_iff (h : 1 ≤ N) (w : Word N) : w ≠ minw N ↔ IsOperand N w.toInt := by
  have h1 := w.isLt
  have h2 := minw_toNat h
  have h3 : w = minw N ↔ w.toNat = 2 ^ (N - 1) := by rw [← h2, BitVec.toNat_inj]
  have h4 := two_pow_pred h
  have h5 : ((2 : Int) ^ (N - 1)) = ((2 ^ (N - 1) : Nat) : Int) := by push_cast; rfl
  rw [Ne, h3, IsOperand, BitVec.toInt_eq_toNat_cond, h5]
  split <;> omega

/-- Rule R72: the magnitude of a valid word. -/
theorem mag_toNat (h : 1 ≤ N) (w : Word N) : (mag w).toNat = w.toInt.natAbs := by
  have h1 := w.isLt
  unfold mag
  rw [signBit_eq_decide h]
  have h4 := two_pow_pred h
  split
  · next hneg =>
    simp only [decide_eq_true_iff] at hneg
    rw [BitVec.toNat_neg]
    rw [BitVec.toInt_eq_toNat_cond] at hneg ⊢
    split at hneg
    · omega
    · next hc =>
      rw [if_neg hc, Nat.mod_eq_of_lt (by omega)]
      omega
  · next hneg =>
    simp only [decide_eq_true_iff] at hneg
    rw [BitVec.toInt_eq_toNat_cond] at hneg ⊢
    split at hneg
    · next hc => rw [if_pos hc]; omega
    · omega

theorem natAbs_lt_of_isOperand {v : Int} (hv : IsOperand N v) : v.natAbs < 2 ^ (N - 1) := by
  obtain ⟨h1, h2⟩ := hv
  have h5 : ((2 : Int) ^ (N - 1)) = ((2 ^ (N - 1) : Nat) : Int) := by push_cast; rfl
  rw [h5] at h1 h2
  have := Nat.two_pow_pos (N - 1)
  omega

/-- Rule R201, case by case. -/
theorem chk_cases (a b : Word N) :
    (b = 0 ∧ chk a b = .divByZero) ∨
    (b ≠ 0 ∧ (a = minw N ∨ b = minw N) ∧ chk a b = .widthOverflow) ∨
    (b ≠ 0 ∧ a ≠ minw N ∧ b ≠ minw N ∧ chk a b = .none) := by
  unfold chk
  by_cases h1 : b = 0
  · exact .inl ⟨h1, if_pos h1⟩
  · rw [if_neg h1]
    by_cases h2 : a = minw N ∨ b = minw N
    · exact .inr (.inl ⟨h1, h2, if_pos h2⟩)
    · rw [if_neg h2]
      push Not at h2
      exact .inr (.inr ⟨h1, h2.1, h2.2, rfl⟩)

theorem chk_ne_reserved (a b : Word N) : chk a b ≠ .reserved := by
  rcases chk_cases a b with ⟨_, h⟩ | ⟨_, _, h⟩ | ⟨_, _, _, h⟩ <;> rw [h] <;> decide

theorem toInt_eq_zero_iff (w : Word N) : w.toInt = 0 ↔ w = 0 := by
  rw [← BitVec.toInt_zero (w := N), BitVec.toInt_inj]; rfl

/-- Rule R163: the sign correction of a magnitude below `2^(N-1)`. -/
theorem fixSign_toInt (h : 1 ≤ N) (m : Word N) (hm : m.toNat < 2 ^ (N - 1)) (s : Bool) :
    (fixSign m s).toInt = if s then -(m.toNat : Int) else m.toNat := by
  have hp := two_pow_pred h
  cases s
  · simpa [fixSign] using toInt_of_nonneg h m hm
  · simp only [fixSign, if_true]
    rw [BitVec.toInt_neg, toInt_of_nonneg h m hm, hp, Int.bmod_eq_of_le] <;> omega

end Sys2Proof.Machine
end

