-- ==== Sys2Proof/Laws/Arith.lean ====
section
/-! SUPPORT. The arithmetic of one iteration: how the top bits, the shifted register and the quotient digits move from `k`
to `k + 1` (the induction step of rules R164 and R165), and the division law of rule R162 in magnitudes and signs. -/

namespace Sys2Proof.Machine

variable {N Dv k c : Nat}

theorem topBits_zero (h : Dv < 2 ^ N) : topBits N Dv 0 = 0 := by
  simpa [topBits] using h

theorem topBits_full : topBits N Dv N = Dv := by simp [topBits]

/-- One more bit of the dividend magnitude. -/
theorem topBits_succ (hk : k < N) :
    topBits N Dv (k + 1) = 2 * topBits N Dv k + Dv / 2 ^ (N - 1 - k) % 2 := by
  obtain ⟨e, rfl⟩ : ∃ e, N = k + 1 + e := ⟨N - (k + 1), by omega⟩
  unfold topBits
  rw [show k + 1 + e - (k + 1) = e by omega, show k + 1 + e - k = e + 1 by omega,
    show k + 1 + e - 1 - k = e by omega, pow_succ, ← Nat.div_div_eq_div_mul]
  omega

theorem topBits_lt (h : Dv < 2 ^ N) (hk : k ≤ N) : topBits N Dv k < 2 ^ k := by
  unfold topBits
  rw [Nat.div_lt_iff_lt_mul (Nat.two_pow_pos _), ← pow_add, Nat.add_sub_cancel' hk]
  exact h

/-- The dividend bits not yet shifted out, below a quotient field of `k` bits. -/
theorem shifted_mod (hk : k ≤ N) : Dv * 2 ^ k % 2 ^ N = 2 ^ k * (Dv % 2 ^ (N - k)) := by
  conv_lhs => rw [← Nat.add_sub_cancel' hk, pow_add, Nat.mul_comm Dv, Nat.mul_mod_mul_left]

/-- `Q[N-1]` is the next bit of the dividend magnitude. -/
theorem next_bit (hk : k < N) (hc : c < 2 ^ k) :
    (Dv * 2 ^ k % 2 ^ N + c) / 2 ^ (N - 1) = Dv / 2 ^ (N - 1 - k) % 2 := by
  rw [shifted_mod hk.le]
  obtain ⟨e, rfl⟩ : ∃ e, N = k + 1 + e := ⟨N - (k + 1), by omega⟩
  rw [show k + 1 + e - k = e + 1 by omega, show k + 1 + e - 1 = k + e by omega,
    show k + e - k = e by omega, pow_add 2 k e, ← Nat.div_div_eq_div_mul,
    Nat.mul_add_div (Nat.two_pow_pos k), Nat.div_eq_of_lt hc, Nat.add_zero, pow_succ, Nat.mod_mul_right_div_self]

/-- The shift of `Q` drops the top bit and doubles the quotient digits. -/
theorem next_shift (hk : k < N) (hc : c < 2 ^ k) :
    2 * (Dv * 2 ^ k % 2 ^ N + c) % 2 ^ N = Dv * 2 ^ (k + 1) % 2 ^ N + 2 * c := by
  rw [shifted_mod hk.le, shifted_mod (k := k + 1) hk]
  obtain ⟨e, rfl⟩ : ∃ e, N = k + 1 + e := ⟨N - (k + 1), by omega⟩
  rw [show k + 1 + e - k = e + 1 by omega, show k + 1 + e - (k + 1) = e by omega]
  have h1 : Dv % 2 ^ (e + 1) = Dv % 2 ^ e + 2 ^ e * (Dv / 2 ^ e % 2) := by rw [pow_succ, Nat.mod_mul]
  have h2 : Dv % 2 ^ e + 1 ≤ 2 ^ e := Nat.mod_lt _ (Nat.two_pow_pos e)
  have h3 : 2 ^ (k + 1) * (Dv % 2 ^ e) + 2 * c < 2 ^ (k + 1 + e) := by
    calc 2 ^ (k + 1) * (Dv % 2 ^ e) + 2 * c < 2 ^ (k + 1) * (Dv % 2 ^ e) + 2 ^ (k + 1) := by
          rw [pow_succ]; omega
      _ = 2 ^ (k + 1) * (Dv % 2 ^ e + 1) := by ring
      _ ≤ 2 ^ (k + 1) * 2 ^ e := Nat.mul_le_mul_left _ h2
      _ = 2 ^ (k + 1 + e) := (pow_add 2 (k + 1) e).symm
  have h4 : 2 * (2 ^ k * (Dv % 2 ^ (e + 1)) + c) =
      2 ^ (k + 1) * (Dv % 2 ^ e) + 2 * c + 2 ^ (k + 1 + e) * (Dv / 2 ^ e % 2) := by
    rw [h1]; ring
  rw [h4, Nat.add_mul_mod_self_left, Nat.mod_eq_of_lt h3]

/-- One step of long division: `2 * R + b` against `M`. -/
theorem division_step {T M b : Nat} (hM : 0 < M) (hb : b < 2) :
    (2 * T + b) / M = 2 * (T / M) + (if M ≤ 2 * (T % M) + b then 1 else 0) ∧
    (2 * T + b) % M = 2 * (T % M) + b - (if M ≤ 2 * (T % M) + b then M else 0) := by
  have h1 := Nat.mod_lt T hM
  have h2 : 2 * T + b = (2 * (T % M) + b) + M * (2 * (T / M)) := by
    conv_lhs => rw [← Nat.div_add_mod T M]
    ring
  rw [h2, Nat.add_mul_div_left _ _ hM, Nat.add_mul_mod_self_left]
  split
  · next h =>
    have h3 : (2 * (T % M) + b) / M = 1 := Nat.div_eq_of_lt_le (by omega) (by omega)
    have h4 := Nat.div_add_mod (2 * (T % M) + b) M
    rw [h3] at h4 ⊢
    constructor <;> omega
  · next h =>
    rw [Nat.div_eq_of_lt (by omega), Nat.mod_eq_of_lt (by omega)]
    constructor <;> omega

/-- Rule R162: the quotient and the remainder from the magnitudes and the sign latches. -/
theorem quotOf_remOf_of_signs {M : Nat} (hM : 0 < M) (sq sr : Bool) (x y : Int)
    (hx : x = if sr then -(Dv : Int) else Dv) (hy : y = if xor sq sr then -(M : Int) else M) :
    quotOf x y = (if sq then -((Dv / M : Nat) : Int) else (Dv / M : Nat)) ∧
    remOf x y = (if sr then -((Dv % M : Nat) : Int) else (Dv % M : Nat)) := by
  have hq : quotOf x y = (if sq then -((Dv / M : Nat) : Int) else (Dv / M : Nat)) := by
    have hxa : x.natAbs = Dv := by rw [hx]; split <;> simp
    have hya : y.natAbs = M := by rw [hy]; split <;> simp
    unfold quotOf
    rw [hxa, hya]
    rcases Nat.eq_zero_or_pos Dv with h0 | h0
    · simp [h0]
    · have hxn : decide (x < 0) = sr := by subst hx; cases sr <;> (simp; try omega)
      have hyn : decide (y < 0) = xor sq sr := by
        subst hy; cases sq <;> cases sr <;> simp <;> omega
      rw [hxn, hyn]
      cases sq <;> cases sr <;> simp
  refine ⟨hq, ?_⟩
  have h1 : ((Dv / M : Nat) : Int) * M + ((Dv % M : Nat) : Int) = Dv := by
    rw [mul_comm]; exact_mod_cast Nat.div_add_mod Dv M
  unfold remOf
  rw [hq, hx, hy]
  cases sq <;> cases sr <;> simp only [Bool.xor_false, Bool.xor_true, Bool.not_true, Bool.not_false, if_true, if_false,
    Bool.false_eq_true] <;> linarith

end Sys2Proof.Machine
end

