-- ==== Sys2Proof/Laws/Decode.lean ====
section
/-! SUPPORT. What the decoder reads from the control vector that a unit builds. -/

namespace Sys2Proof

@[simp] theorem controlVector_rst (rst : Bool) (ph : Phase) (start : Bool) :
    (controlVector rst ph start).getLsbD 3 = rst := by revert rst start; cases ph <;> decide

@[simp] theorem controlVector_start (rst : Bool) (ph : Phase) (start : Bool) :
    (controlVector rst ph start).getLsbD 0 = start := by revert rst start; cases ph <;> decide

@[simp] theorem controlVector_ph (rst : Bool) (ph : Phase) (start : Bool) :
    Phase.ofCode ((controlVector rst ph start).extractLsb' 1 2) = ph := by revert rst start; cases ph <;> decide

/-- Rules R76, R77 for RD, in terms of the fields of the control vector. -/
theorem decode_rd (rst : Bool) (ph : Phase) (start : Bool) (a b : Nat) :
    decode ⟨.rd, controlVector rst ph start, a, b⟩ =
      if rst then .rdReset ph start
      else match ph with
        | .idle => if start then .rdStart a b else .rdIdle
        | .iter => .rdIter start
        | .corr => .rdRsv start
        | .fix => .rdFix start := by
  simp only [decode, controlVector_rst, controlVector_start, controlVector_ph]
  cases rst <;> cases ph <;> cases start <;> rfl

/-- Rules R76, R77 for NRD, in terms of the fields of the control vector. -/
theorem decode_nrd (rst : Bool) (ph : Phase) (start : Bool) (a b : Nat) :
    decode ⟨.nrd, controlVector rst ph start, a, b⟩ =
      if rst then .nrdReset ph start
      else match ph with
        | .idle => if start then .nrdStart a b else .nrdIdle
        | .iter => .nrdIter start
        | .corr => .nrdCorr start
        | .fix => .nrdFix start := by
  simp only [decode, controlVector_rst, controlVector_start, controlVector_ph]
  cases rst <;> cases ph <;> cases start <;> rfl

/-- Every control vector is built from its fields. -/
theorem exists_controlVector (cv : BitVec 4) : ∃ rst ph start, cv = controlVector rst ph start := by
  refine ⟨cv.getLsbD 3, Phase.ofCode (cv.extractLsb' 1 2), cv.getLsbD 0, ?_⟩
  revert cv
  decide

theorem Phase.ofCode_code (p : Phase) : Phase.ofCode p.code = p := by cases p <;> rfl

theorem Phase.code_ofCode (c : BitVec 2) : (Phase.ofCode c).code = c := by revert c; decide

end Sys2Proof
end

