-- ==== Sys2Proof/Laws/PerInstr.lean ====
section
/-! SUPPORT. Laws of every instruction as syntax, one lemma per constructor. -/

namespace Sys2Proof.Laws.RowPattern

/-- Rule R77: an instruction's control vector has the pattern, under the mask, of the line that the spec's table gives its
row, and belongs to that line's unit. -/
def Statement (i : Instr) : Prop :=
  ∃ r ∈ controlTable, r.name = i.row ∧ r.unit = (encode i).unit ∧ (encode i).cv &&& r.mask = r.patt

theorem rdReset (ph : Phase) (start : Bool) : Statement (.rdReset ph start) :=
  ⟨⟨.rdReset, .rd, 0b1000#4, 0b1000#4⟩, by decide, rfl, rfl, by revert ph start; intro ph; cases ph <;> decide⟩

theorem rdIdle : Statement .rdIdle :=
  ⟨⟨.rdIdle, .rd, 0b0000#4, 0b1111#4⟩, by decide, rfl, rfl, by decide⟩

theorem rdStart (dividend divisor : Nat) : Statement (.rdStart dividend divisor) :=
  ⟨⟨.rdStart, .rd, 0b0001#4, 0b1111#4⟩, by decide, rfl, rfl, by simp only [encode]; decide⟩

theorem rdIter (start : Bool) : Statement (.rdIter start) :=
  ⟨⟨.rdIter, .rd, 0b0010#4, 0b1110#4⟩, by decide, rfl, rfl, by revert start; decide⟩

theorem rdRsv (start : Bool) : Statement (.rdRsv start) :=
  ⟨⟨.rdRsv, .rd, 0b0100#4, 0b1110#4⟩, by decide, rfl, rfl, by revert start; decide⟩

theorem rdFix (start : Bool) : Statement (.rdFix start) :=
  ⟨⟨.rdFix, .rd, 0b0110#4, 0b1110#4⟩, by decide, rfl, rfl, by revert start; decide⟩

theorem nrdReset (ph : Phase) (start : Bool) : Statement (.nrdReset ph start) :=
  ⟨⟨.nrdReset, .nrd, 0b1000#4, 0b1000#4⟩, by decide, rfl, rfl, by revert ph start; intro ph; cases ph <;> decide⟩

theorem nrdIdle : Statement .nrdIdle :=
  ⟨⟨.nrdIdle, .nrd, 0b0000#4, 0b1111#4⟩, by decide, rfl, rfl, by decide⟩

theorem nrdStart (dividend divisor : Nat) : Statement (.nrdStart dividend divisor) :=
  ⟨⟨.nrdStart, .nrd, 0b0001#4, 0b1111#4⟩, by decide, rfl, rfl, by simp only [encode]; decide⟩

theorem nrdIter (start : Bool) : Statement (.nrdIter start) :=
  ⟨⟨.nrdIter, .nrd, 0b0010#4, 0b1110#4⟩, by decide, rfl, rfl, by revert start; decide⟩

theorem nrdCorr (start : Bool) : Statement (.nrdCorr start) :=
  ⟨⟨.nrdCorr, .nrd, 0b0100#4, 0b1110#4⟩, by decide, rfl, rfl, by revert start; decide⟩

theorem nrdFix (start : Bool) : Statement (.nrdFix start) :=
  ⟨⟨.nrdFix, .nrd, 0b0110#4, 0b1110#4⟩, by decide, rfl, rfl, by revert start; decide⟩

end Sys2Proof.Laws.RowPattern
end

