-- ==== Sys2Proof/Laws/Step.lean ====
section
/-! SUPPORT. One edge of each unit as a function of that unit alone, and the step as the two of them side by side: every
later proof about a step cites `step_eq` instead of unfolding `step`. -/

namespace Sys2Proof.Machine

variable {N : Nat}

/-- What one edge does to RD; in the reserved phase, which the step refuses, nothing is said. -/
def rdEdge (rst : Bool) (inp : UnitIn N) (u : DivUnit N) : DivUnit N :=
  if rst then u.hardReset .rd
  else match u.ph with
    | .idle => if inp.start then u.accept inp.dividend inp.divisor else u
    | .iter => u.restoringIter
    | .corr => u
    | .fix => u.writeResult

/-- What one edge does to NRD. -/
def nrdEdge (rst : Bool) (inp : UnitIn N) (u : DivUnit N) : DivUnit N :=
  if rst then u.hardReset .nrd
  else match u.ph with
    | .idle => if inp.start then u.accept inp.dividend inp.divisor else u
    | .iter => u.nonRestoringIter
    | .corr => u.correct
    | .fix => u.writeResult

@[simp] theorem operandWord_toNat (w : Word N) : operandWord N w.toNat = w := by simp [operandWord]

theorem exec_rdInstr (s : State) :
    exec s.rdInstr s =
      if s.nextEdge.rst = false ∧ s.rd.ph = .corr then .refused .rdReservedPhase
      else .next (s.setRd (rdEdge s.nextEdge.rst s.nextEdge.rd s.rd)) := by
  unfold State.rdInstr rowWord
  rw [decode_rd]
  unfold rdEdge
  generalize hr : s.nextEdge.rst = r
  cases r
  · rcases h : s.rd.ph
    · generalize hs : s.nextEdge.rd.start = st
      cases st
      · simp [exec, execRdIdle, State.setRd]
      · simp [exec, execRdStart, State.setRd]
    · simp [exec, execRdIter]
    · simp [exec, execRdRsv]
    · simp [exec, execRdFix]
  · simp [exec, execRdReset]

theorem exec_nrdInstr (s : State) (u : DivUnit s.N) :
    exec s.nrdInstr (s.setRd u) =
      .next ((s.setRd u).setNrd (nrdEdge s.nextEdge.rst s.nextEdge.nrd s.nrd)) := by
  unfold State.nrdInstr rowWord
  rw [decode_nrd]
  unfold nrdEdge
  generalize hr : s.nextEdge.rst = r
  cases r
  · rcases h : s.nrd.ph
    · generalize hs : s.nextEdge.nrd.start = st
      cases st
      · simp [exec, execNrdIdle]
      · simp [exec, execNrdStart]
    · simp [exec, execNrdIter]
    · simp [exec, execNrdCorr]
    · simp [exec, execNrdFix]
  · simp [exec, execNrdReset]

/-- The state after an edge that is not refused. -/
@[reducible] def State.after (s : State) : State where
  N := s.N
  rd := rdEdge s.nextEdge.rst s.nextEdge.rd s.rd
  nrd := nrdEdge s.nextEdge.rst s.nextEdge.nrd s.nrd
  inputs := s.inputs.tail

/-- Everything a step can do. -/
theorem step_eq (s : State) :
    step s =
      if s.N < 2 then .refused .widthBelowTwo
      else if s.nextEdge.rst = false ∧ s.rd.ph = .corr then .refused .rdReservedPhase
      else .next s.after := by
  unfold step
  rw [exec_rdInstr]
  split
  · rfl
  · split
    · rfl
    · simp only [andThen]
      rw [exec_nrdInstr]

/-- What a step that answers a next state was. -/
theorem step_next {s t : State} (h : step s = .next t) :
    2 ≤ s.N ∧ ¬(s.nextEdge.rst = false ∧ s.rd.ph = .corr) ∧ t = s.after := by
  rw [step_eq] at h
  split at h
  · cases h
  · split at h
    · cases h
    · cases h
      exact ⟨by omega, by assumption, rfl⟩

/-- When a step answers a next state. -/
theorem step_of_legal {s : State} (hN : 2 ≤ s.N) (h : s.rd.ph ≠ .corr) : step s = .next s.after := by
  rw [step_eq, if_neg (by omega), if_neg (by tauto)]

theorem core_run_next (M : Host.Core) (k : Nat) (s t : M.State) (h : M.step s = .next t) :
    M.run (k + 1) s = M.run k t := by
  rw [Host.Core.run, h]

theorem core_run_refused (M : Host.Core) (k : Nat) (s : M.State) (e : M.Refusal) (h : M.step s = .refused e) :
    M.run (k + 1) s = .refused e := by
  rw [Host.Core.run, h]

/-- A run of no edge changes nothing. -/
theorem run_zero (s : State) : run 0 s = .next s := rfl

/-- A run of `k + 1` edges is one edge and then a run of `k`. -/
theorem run_succ (k : Nat) (s : State) : run (k + 1) s = andThen (step s) (run k) := by
  rcases h : step s with t | e | e
  · exact core_run_next core k s t h
  · cases e
  · exact core_run_refused core k s e h

end Sys2Proof.Machine
end

