-- ==== Sys2Proof/Laws/Units.lean ====
section
/-! SUPPORT. What each step rule does to a unit, once: the iteration of each unit in numbers, the induction steps of the
loop invariants of rules R164 and R165, the correction and the result write. -/

namespace Sys2Proof.Machine

variable {N : Nat}

/-! ## The iteration rules field by field -/

theorem restoringIter_eq (u : DivUnit N) :
    u.restoringIter = DivUnit.endIteration .fix (DivUnit.countOne
      { u with
        A := if signFlag (shiftAcc u.A u.Q - zextAcc u.M) then shiftAcc u.A u.Q else shiftAcc u.A u.Q - zextAcc u.M
        Q := recordBit (shiftQuo u.Q) (!signFlag (shiftAcc u.A u.Q - zextAcc u.M)) }) := by
  have h0 : recordBit (shiftQuo u.Q) false = shiftQuo u.Q := by simp [recordBit, bitWord]
  unfold DivUnit.restoringIter
  cases h : signFlag (shiftAcc u.A u.Q - zextAcc u.M)
  · simp [h]
  · simp [h, h0]

theorem nonRestoringIter_eq (u : DivUnit N) :
    u.nonRestoringIter = DivUnit.endIteration .corr (DivUnit.countOne
      { u with
        A := if signFlag u.A then shiftAcc u.A u.Q + zextAcc u.M else shiftAcc u.A u.Q - zextAcc u.M
        Q := recordBit (shiftQuo u.Q) (!signFlag
          (if signFlag u.A then shiftAcc u.A u.Q + zextAcc u.M else shiftAcc u.A u.Q - zextAcc u.M)) }) := rfl

theorem restoringIter_ph (u : DivUnit N) : u.restoringIter.ph = if u.i.toNat = N - 1 then .fix else u.ph := by
  rw [restoringIter_eq, DivUnit.endIteration_ph]; rfl

theorem nonRestoringIter_ph (u : DivUnit N) :
    u.nonRestoringIter.ph = if u.i.toNat = N - 1 then .corr else u.ph := by
  rw [nonRestoringIter_eq, DivUnit.endIteration_ph]; rfl

/-- Rule R23: an iteration that is not the last counts up `i`, which does not wrap. -/
theorem endIteration_i (hN : 2 ≤ N) (exit : Phase) {u : DivUnit N} (h : u.i.toNat + 1 < N) :
    (u.endIteration exit).i.toNat = u.i.toNat + 1 := by
  rw [(u.endIteration_more exit (by omega)).1, BitVec.toNat_add]
  have h3 := pred_lt_two_pow_IW N
  have h4 : (1 : BitVec (IW N)).toNat = 1 := by
    rw [show (1 : BitVec (IW N)) = BitVec.ofNat _ 1 from rfl, BitVec.toNat_ofNat]; exact Nat.mod_eq_of_lt (by omega)
  rw [h4, Nat.mod_eq_of_lt (by omega)]

theorem restoringIter_i (hN : 2 ≤ N) {u : DivUnit N} (h : u.i.toNat + 1 < N) :
    u.restoringIter.i.toNat = u.i.toNat + 1 := by
  rw [restoringIter_eq]; exact endIteration_i hN .fix h

theorem nonRestoringIter_i (hN : 2 ≤ N) {u : DivUnit N} (h : u.i.toNat + 1 < N) :
    u.nonRestoringIter.i.toNat = u.i.toNat + 1 := by
  rw [nonRestoringIter_eq]; exact endIteration_i hN .corr h

theorem mod_of_lt_two_mul {x m : Nat} (h : x < 2 * m) : x % m = if x < m then x else x - m := by
  split
  · next h' => exact Nat.mod_eq_of_lt h'
  · next h' => rw [Nat.mod_eq_sub_mod (by omega), Nat.mod_eq_of_lt (by omega)]

/-- Rule R102 when nothing wraps: the trial subtraction in numbers. -/
theorem trial_sub (As : Acc N) (M : Word N) (h : As.toNat < 2 ^ N) :
    (signFlag (As - zextAcc M) = true ↔ As.toNat < M.toNat) ∧
    (M.toNat ≤ As.toNat → (As - zextAcc M).toNat = As.toNat - M.toNat) := by
  have hM := M.isLt
  have h1 : (As - zextAcc M).toNat = (2 ^ (N + 1) - M.toNat + As.toNat) % 2 ^ (N + 1) := by
    rw [BitVec.toNat_sub, zextAcc_toNat]
  rw [signFlag_iff_toNat, h1, mod_of_lt_two_mul (by rw [pow_succ]; omega), pow_succ]
  constructor
  · split <;> omega
  · intro h2; split <;> omega

/-- The value of the shifted accumulator when nothing wraps (rule R160). -/
theorem shiftAcc_toInt (h : 1 ≤ N) (A : Acc N) (Q : Word N) (hlo : -(2 ^ N : Int) ≤ 2 * A.toInt)
    (hhi : 2 * A.toInt + (Q.toNat / 2 ^ (N - 1) : Nat) < 2 ^ N) :
    (shiftAcc A Q).toInt = 2 * A.toInt + (Q.toNat / 2 ^ (N - 1) : Nat) := by
  have h1 := shiftAcc_toNat h A Q
  have hA := A.isLt
  have hQ := Q.isLt
  rw [two_pow_pred h] at hQ
  have hq : Q.toNat / 2 ^ (N - 1) < 2 := Nat.div_lt_of_lt_mul (by omega)
  rw [show ((2 : Int) ^ N) = ((2 ^ N : Nat) : Int) by push_cast; rfl] at hlo hhi
  rw [BitVec.toInt_eq_toNat_cond] at hlo hhi
  rw [BitVec.toInt_eq_toNat_cond, BitVec.toInt_eq_toNat_cond (x := A), h1, mod_of_lt_two_mul (by omega)]
  rw [pow_succ] at hA hlo hhi ⊢
  have := Nat.two_pow_pos N
  generalize Q.toNat / 2 ^ (N - 1) = q at *
  generalize 2 ^ N = P at *
  split at hlo <;> split <;> split <;> omega

/-- Adding or subtracting `M` when nothing wraps (rule R160). -/
theorem accSub_toInt (As : Acc N) (M : Word N) (h : -(2 ^ N : Int) ≤ As.toInt - M.toNat) (hM : M.toNat < 2 ^ N) :
    (As - zextAcc M).toInt = As.toInt - M.toNat := by
  have h1 := zextAcc_toNat M
  have h2 : (zextAcc M).toInt = M.toNat := by
    have := toInt_of_nonneg (N := N + 1) (by omega) (zextAcc M) (by rw [h1]; exact hM)
    rw [this, h1]
  have h3 := BitVec.toInt_lt (x := As)
  rw [show N + 1 - 1 = N by omega] at h3
  rw [BitVec.toInt_sub, h2, pow_succ]
  rw [show ((2 : Int) ^ N) = ((2 ^ N : Nat) : Int) by push_cast; rfl] at h h3
  exact Int.bmod_eq_of_le (by omega) (by omega)

theorem accAdd_toInt (As : Acc N) (M : Word N) (h : As.toInt + M.toNat < 2 ^ N) (hM : M.toNat < 2 ^ N) :
    (As + zextAcc M).toInt = As.toInt + M.toNat := by
  have h1 := zextAcc_toNat M
  have h2 : (zextAcc M).toInt = M.toNat := by
    have := toInt_of_nonneg (N := N + 1) (by omega) (zextAcc M) (by rw [h1]; exact hM)
    rw [this, h1]
  have h3 := BitVec.le_toInt (x := As)
  rw [show N + 1 - 1 = N by omega] at h3
  rw [BitVec.toInt_add, h2, pow_succ]
  rw [show ((2 : Int) ^ N) = ((2 ^ N : Nat) : Int) by push_cast; rfl] at h h3
  exact Int.bmod_eq_of_le (by omega) (by omega)

theorem countOne_toNat {u : DivUnit N} {k : Nat} (h : u.cnt.toNat = k) (hk : k ≤ N) : (u.cnt + 1).toNat = k + 1 := by
  have h1 := succ_lt_two_pow_CW N
  have h2 : (1 : BitVec (CW N)).toNat = 1 := by
    rw [show (1 : BitVec (CW N)) = BitVec.ofNat _ 1 from rfl, BitVec.toNat_ofNat]; exact Nat.mod_eq_of_lt (by omega)
  rw [BitVec.toNat_add, h, h2, Nat.mod_eq_of_lt (by omega)]

/-! ## The loop invariants move on (rules R164 and R165) -/

theorem LoopCommon.top_lt {Dv k : Nat} {u : DivUnit N} (h : LoopCommon Dv k u) (hN : 1 ≤ N) (hk : k ≤ N) :
    topBits N Dv k / u.M.toNat < 2 ^ k :=
  lt_of_le_of_lt (Nat.div_le_self _ _)
    (topBits_lt (lt_of_lt_of_le h.dividend_lt (Nat.pow_le_pow_right (by decide) (by omega))) hk)

/-- The bit that an iteration shifts in. -/
theorem LoopCommon.next_bit {Dv k : Nat} {u : DivUnit N} (h : LoopCommon Dv k u) (hN : 1 ≤ N) (hk : k < N) :
    u.Q.toNat / 2 ^ (N - 1) = Dv / 2 ^ (N - 1 - k) % 2 := by
  rw [h.quotient]; exact Machine.next_bit hk (h.top_lt hN hk.le)

theorem RdLoop.restoringIter {Dv k : Nat} {u : DivUnit N} (h : RdLoop Dv k u) (hN : 1 ≤ N) (hk : k < N) :
    RdLoop Dv (k + 1) u.restoringIter := by
  have hp := two_pow_pred hN
  have hb := h.next_bit hN hk
  have hb2 : u.Q.toNat / 2 ^ (N - 1) < 2 := by rw [hb]; exact Nat.mod_lt _ (by decide)
  have hR : topBits N Dv k % u.M.toNat < u.M.toNat := Nat.mod_lt _ h.divisor_pos
  have hM := h.divisor_lt
  have hAs : (shiftAcc u.A u.Q).toNat = 2 * (topBits N Dv k % u.M.toNat) + u.Q.toNat / 2 ^ (N - 1) := by
    rw [shiftAcc_toNat hN, h.acc, Nat.mod_eq_of_lt]
    rw [pow_succ]
    omega
  obtain ⟨hneg, hsub⟩ := trial_sub (shiftAcc u.A u.Q) u.M (by omega)
  obtain ⟨hdiv, hmod⟩ := division_step (T := topBits N Dv k) h.divisor_pos hb2
  have hT : topBits N Dv (k + 1) = 2 * topBits N Dv k + u.Q.toNat / 2 ^ (N - 1) := by rw [topBits_succ hk, hb]
  rw [← hT] at hdiv hmod
  rw [restoringIter_eq]
  have hcase : signFlag (shiftAcc u.A u.Q - zextAcc u.M) =
      decide (¬ u.M.toNat ≤ 2 * (topBits N Dv k % u.M.toNat) + u.Q.toNat / 2 ^ (N - 1)) := by
    rw [Bool.eq_iff_iff, hneg, decide_eq_true_iff, hAs]; omega
  refine { dividend_lt := h.dividend_lt, divisor_pos := ?_, divisor_lt := ?_, count := ?_, quotient := ?_, acc := ?_ }
  · simpa using h.divisor_pos
  · simpa using h.divisor_lt
  · simpa using countOne_toNat h.count (by omega)
  · simp only [DivUnit.endIteration_Q, DivUnit.countOne_Q, DivUnit.endIteration_M, DivUnit.countOne_M]
    rw [recordBit_shiftQuo_toNat hN, hcase, hdiv, h.quotient, next_shift hk (h.top_lt hN hk.le), Nat.add_assoc]
    congr 2
    split <;> simp_all
  · simp only [DivUnit.endIteration_A, DivUnit.countOne_A, DivUnit.endIteration_M, DivUnit.countOne_M]
    rw [hmod, hcase]
    split
    · next hc => simp only [decide_eq_true_iff] at hc; rw [if_neg hc, hAs, Nat.sub_zero]
    · next hc =>
      simp only [decide_eq_true_iff, not_not] at hc
      rw [if_pos hc, hsub (by omega), hAs]

/-- Rule R165 in the form an iteration uses: `A` is the remainder so far, or `M` below it, and which one is its sign. -/
theorem NrdLoop.acc_cases {Dv k : Nat} {u : DivUnit N} (h : NrdLoop Dv k u) (hN : 1 ≤ N) :
    (signFlag u.A = false ∧ u.A.toInt = ((topBits N Dv k % u.M.toNat : Nat) : Int)) ∨
    (signFlag u.A = true ∧ u.A.toInt = ((topBits N Dv k % u.M.toNat : Nat) : Int) - u.M.toNat) := by
  have hR : topBits N Dv k % u.M.toNat < u.M.toNat := Nat.mod_lt _ h.divisor_pos
  have hacc := h.acc
  rw [signFlag_eq_decide]
  split at hacc
  · next h0 =>
    subst h0
    left
    rw [topBits_zero (lt_of_lt_of_le h.dividend_lt (Nat.pow_le_pow_right (by decide) (by omega)))]
    simp [hacc]
  · split at hacc
    · left; refine ⟨?_, hacc⟩; simp; omega
    · right; refine ⟨?_, hacc⟩; simp; omega

theorem NrdLoop.nonRestoringIter {Dv k : Nat} {u : DivUnit N} (h : NrdLoop Dv k u) (hN : 1 ≤ N) (hk : k < N) :
    NrdLoop Dv (k + 1) u.nonRestoringIter := by
  have hp := two_pow_pred hN
  have hb := h.next_bit hN hk
  have hb2 : u.Q.toNat / 2 ^ (N - 1) < 2 := by rw [hb]; exact Nat.mod_lt _ (by decide)
  have hR : topBits N Dv k % u.M.toNat < u.M.toNat := Nat.mod_lt _ h.divisor_pos
  have hM := h.divisor_lt
  have hP : ((2 : Int) ^ N) = ((2 ^ N : Nat) : Int) := by push_cast; rfl
  obtain ⟨hdiv, hmod⟩ := division_step (T := topBits N Dv k) h.divisor_pos hb2
  have hT : topBits N Dv (k + 1) = 2 * topBits N Dv k + u.Q.toNat / 2 ^ (N - 1) := by rw [topBits_succ hk, hb]
  rw [← hT] at hdiv hmod
  have hAn : (if signFlag u.A then shiftAcc u.A u.Q + zextAcc u.M else shiftAcc u.A u.Q - zextAcc u.M).toInt =
      2 * ((topBits N Dv k % u.M.toNat : Nat) : Int) + (u.Q.toNat / 2 ^ (N - 1) : Nat) - u.M.toNat := by
    rcases h.acc_cases hN with ⟨hs, ha⟩ | ⟨hs, ha⟩
    · have hAs := shiftAcc_toInt hN u.A u.Q (by omega) (by omega)
      rw [hs, if_neg (by decide), accSub_toInt _ _ (by omega) (by omega), hAs, ha]
    · have hAs := shiftAcc_toInt hN u.A u.Q (by omega) (by omega)
      rw [hs, if_pos rfl, accAdd_toInt _ _ (by omega) (by omega), hAs, ha]
      omega
  rw [nonRestoringIter_eq]
  generalize hdef : (if signFlag u.A then shiftAcc u.A u.Q + zextAcc u.M else shiftAcc u.A u.Q - zextAcc u.M) = An at hAn ⊢
  have hcase : signFlag An =
      decide (¬ u.M.toNat ≤ 2 * (topBits N Dv k % u.M.toNat) + u.Q.toNat / 2 ^ (N - 1)) := by
    rw [signFlag_eq_decide, hAn, decide_eq_decide]; omega
  have hQ : (recordBit (shiftQuo u.Q) (!signFlag An)).toNat =
      Dv * 2 ^ (k + 1) % 2 ^ N + topBits N Dv (k + 1) / u.M.toNat := by
    rw [recordBit_shiftQuo_toNat hN, hcase, hdiv, h.quotient, next_shift hk (h.top_lt hN hk.le), Nat.add_assoc]
    congr 2
    split <;> simp_all
  refine { dividend_lt := h.dividend_lt, divisor_pos := ?_, divisor_lt := ?_, count := ?_, quotient := ?_, acc := ?_ }
  · simpa using h.divisor_pos
  · simpa using h.divisor_lt
  · simpa using countOne_toNat h.count (by omega)
  · simpa using hQ
  · simp only [DivUnit.endIteration_A, DivUnit.countOne_A, DivUnit.endIteration_M, DivUnit.countOne_M,
      DivUnit.endIteration_Q, DivUnit.countOne_Q]
    have hodd : (recordBit (shiftQuo u.Q) (!signFlag An)).toNat % 2 = (!signFlag An).toNat := by
      rw [recordBit_shiftQuo_toNat hN]
      have h2 : 2 * u.Q.toNat % 2 ^ N = 2 * (u.Q.toNat % 2 ^ (N - 1)) := by rw [hp, Nat.mul_mod_mul_left]
      have := (!signFlag An).toNat_lt
      omega
    rw [if_neg (by omega), hodd, hAn, hmod, hcase]
    by_cases hc : u.M.toNat ≤ 2 * (topBits N Dv k % u.M.toNat) + u.Q.toNat / 2 ^ (N - 1)
    · simp only [hc, not_true, decide_false, Bool.not_false, Bool.toNat_true, if_true]
      omega
    · simp only [hc, not_false_iff, decide_true, Bool.not_true, Bool.toNat_false, if_false]
      simp

/-- After the last RD iteration the unit is as rule R166 says. -/
theorem RdLoop.atFix {Dv : Nat} {u : DivUnit N} (h : RdLoop Dv N u) : AtFix Dv u where
  dividend_lt := h.dividend_lt
  divisor_pos := h.divisor_pos
  divisor_lt := h.divisor_lt
  quotient := by rw [h.quotient, topBits_full, Nat.mul_mod_left, Nat.zero_add]
  acc := by rw [h.acc, topBits_full]

/-- Rules R133, R166 and R167: the correction. -/
theorem NrdLoop.correct {Dv : Nat} {u : DivUnit N} (h : NrdLoop Dv N u) (hN : 1 ≤ N) :
    AtFix Dv u.correct ∧ u.correct.cnt.toNat = nrdCount N Dv u.M.toNat := by
  have hp := two_pow_pred hN
  have hQ : u.Q.toNat = Dv / u.M.toNat := by rw [h.quotient, topBits_full, Nat.mul_mod_left, Nat.zero_add]
  have hR : Dv % u.M.toNat < u.M.toNat := Nat.mod_lt _ h.divisor_pos
  have hM := h.divisor_lt
  have hacc := h.acc
  have hP : ((2 : Int) ^ N) = ((2 ^ N : Nat) : Int) := by push_cast; rfl
  rw [if_neg (by omega), hQ, topBits_full] at hacc
  have hnn : ∀ (v : Acc N) (n : Nat), n < 2 ^ N → v.toInt = (n : Int) → v.toNat = n := by
    intro v n hn hv
    have hlt := v.isLt
    rw [BitVec.toInt_eq_toNat_cond] at hv
    rw [pow_succ] at hv hlt
    split at hv <;> omega
  unfold DivUnit.correct nrdCount
  split at hacc
  · next hodd =>
    have hs : signFlag u.A = false := by rw [signFlag_eq_decide, hacc]; simp; omega
    simp only [hs, Bool.false_eq_true, if_false]
    refine ⟨⟨h.dividend_lt, h.divisor_pos, h.divisor_lt, hQ, hnn u.A (Dv % u.M.toNat) (by omega) hacc⟩, ?_⟩
    rw [h.count]; omega
  · next hodd =>
    have hs : signFlag u.A = true := by rw [signFlag_eq_decide, hacc]; simp; omega
    simp only [hs, if_true, DivUnit.countOne_cnt]
    refine ⟨⟨h.dividend_lt, h.divisor_pos, h.divisor_lt, hQ,
      hnn (u.A + zextAcc u.M) (Dv % u.M.toNat) (by omega) ?_⟩, ?_⟩
    · rw [accAdd_toInt u.A u.M (by omega) (by omega), hacc]; omega
    · rw [countOne_toNat h.count le_rfl]; omega

/-- Rules R104, R134, R163 and R166: the result words, for every pair of integers with these magnitudes and signs. -/
theorem AtFix.writeResult {Dv : Nat} {u : DivUnit N} (h : AtFix Dv u) (hN : 1 ≤ N) {x y : Int}
    (hx : x = if u.sr then -(Dv : Int) else Dv) (hy : y = if xor u.sq u.sr then -(u.M.toNat : Int) else u.M.toNat) :
    u.writeResult.quoR.toInt = quotOf x y ∧ u.writeResult.remR.toInt = remOf x y := by
  have hp := two_pow_pred hN
  have hd := h.dividend_lt
  have hm := h.divisor_lt
  have hR : Dv % u.M.toNat < u.M.toNat := Nat.mod_lt _ h.divisor_pos
  obtain ⟨hq, hr⟩ := quotOf_remOf_of_signs h.divisor_pos u.sq u.sr x y hx hy
  have hQ : u.Q.toNat < 2 ^ (N - 1) := by
    rw [h.quotient]; exact lt_of_le_of_lt (Nat.div_le_self _ _) h.dividend_lt
  have hA : (u.A.setWidth N).toNat = Dv % u.M.toNat := by
    rw [BitVec.toNat_setWidth, h.acc, Nat.mod_eq_of_lt (by omega)]
  have h1 := fixSign_toInt hN u.Q hQ u.sq
  have h2 := fixSign_toInt hN (u.A.setWidth N) (by omega) u.sr
  rw [h.quotient] at h1
  rw [hA] at h2
  exact ⟨h1.trans hq.symm, h2.trans hr.symm⟩

/-- Rules R101 and R131: after a valid accepting edge both loops stand at iteration 0. -/
theorem loop_start (hN : 1 ≤ N) {a b : Word N} (hc : chk a b = .none) (u : DivUnit N) :
    RdLoop a.toInt.natAbs 0 (u.initialise a b) ∧ NrdLoop a.toInt.natAbs 0 (u.initialise a b) := by
  rcases chk_cases a b with ⟨_, h⟩ | ⟨_, _, h⟩ | ⟨hb, ha, hb', _⟩
  · rw [h] at hc; cases hc
  · rw [h] at hc; cases hc
  · have ha1 := natAbs_lt_of_isOperand ((ne_minw_iff hN a).1 ha)
    have hb1 := natAbs_lt_of_isOperand ((ne_minw_iff hN b).1 hb')
    have hb2 : b.toInt ≠ 0 := fun h => hb ((toInt_eq_zero_iff b).1 h)
    have hlt : a.toInt.natAbs < 2 ^ N := lt_of_lt_of_le ha1 (Nat.pow_le_pow_right (by decide) (by omega))
    have hM : (u.initialise a b).M.toNat = b.toInt.natAbs := mag_toNat hN b
    have hQ : (u.initialise a b).Q.toNat = a.toInt.natAbs := mag_toNat hN a
    have hcommon : LoopCommon a.toInt.natAbs 0 (u.initialise a b) :=
      { dividend_lt := ha1
        divisor_pos := by rw [hM]; omega
        divisor_lt := by rw [hM]; exact hb1
        count := by simp [DivUnit.initialise]
        quotient := by rw [hQ, topBits_zero hlt]; simp [Nat.mod_eq_of_lt hlt] }
    refine ⟨{ hcommon with acc := ?_ }, { hcommon with acc := ?_ }⟩
    · rw [topBits_zero hlt]; simp [DivUnit.initialise]
    · simp [DivUnit.initialise]

end Sys2Proof.Machine
end

