-- ==== Sys2Proof/Laws/Run.lean ====
section
/-! SUPPORT. A run of the machine as the runs of the two units side by side. -/

namespace Sys2Proof.Machine

variable {N : Nat}

/-- No row but the refused one has RD in the reserved phase afterwards (rule R103). -/
theorem rdEdge_ph_ne_corr (rst : Bool) (inp : UnitIn N) {u : DivUnit N} (hu : u.ph ≠ .corr) :
    (rdEdge rst inp u).ph ≠ .corr := by
  unfold rdEdge
  cases rst
  · simp only [Bool.false_eq_true, if_false]
    split
    · split
      · unfold DivUnit.accept
        split
        · simp [DivUnit.initialise]
        · exact hu
      · exact hu
    · rw [restoringIter_ph]; split <;> simp_all
    · exact hu
    · simp [DivUnit.writeResult]
  · simp [DivUnit.hardReset]

/-- RD after `k` edges with these inputs. -/
def rdRun : Nat → List (Edge N) → DivUnit N → DivUnit N
  | 0, _, u => u
  | k + 1, ins, u =>
    rdRun k ins.tail (rdEdge (ins.headD (Edge.quiet N)).rst (ins.headD (Edge.quiet N)).rd u)

/-- NRD after `k` edges with these inputs. -/
def nrdRun : Nat → List (Edge N) → DivUnit N → DivUnit N
  | 0, _, u => u
  | k + 1, ins, u =>
    nrdRun k ins.tail (nrdEdge (ins.headD (Edge.quiet N)).rst (ins.headD (Edge.quiet N)).nrd u)

/-- Every run of a legal machine, once and for all. -/
theorem run_eq (hN : 2 ≤ N) (k : Nat) : ∀ (rd nrd : DivUnit N) (ins : List (Edge N)), rd.ph ≠ .corr →
    run k ⟨N, rd, nrd, ins⟩ = .next ⟨N, rdRun k ins rd, nrdRun k ins nrd, ins.drop k⟩ := by
  induction k with
  | zero => intro rd nrd ins _; rfl
  | succ k ih =>
    intro rd nrd ins h
    rw [run_succ, step_of_legal hN h]
    simp only [andThen, State.after, State.nextEdge]
    rw [ih _ _ _ (rdEdge_ph_ne_corr _ _ h), rdRun, nrdRun, List.drop_tail]

end Sys2Proof.Machine
end

