-- ==== Sys2Proof/Laws/Stimulus.lean ====
section
/-! SUPPORT. The bit order of written words (rules R51 and R84): a word and its digits give each other back; and what driving edges and
checking an `EXPECT` come to. -/

namespace Sys2Proof.Machine

variable {N : Nat}

theorem foldl_bits (digits : List Bool) (start : Nat) :
    digits.foldl (fun v b => 2 * v + b.toNat) start = start * 2 ^ digits.length + bitsNat digits := by
  unfold bitsNat
  induction digits generalizing start with
  | nil => simp
  | cons b l ih =>
    simp only [List.foldl_cons, List.length_cons]
    rw [ih, ih (2 * 0 + b.toNat), pow_succ]
    ring

theorem bitsNat_cons (b : Bool) (l : List Bool) : bitsNat (b :: l) = 2 ^ l.length * b.toNat + bitsNat l := by
  have h := foldl_bits l (2 * 0 + b.toNat)
  rw [Nat.mul_zero, Nat.zero_add, Nat.mul_comm] at h
  simpa [bitsNat] using h

theorem bitsNat_lt (l : List Bool) : bitsNat l < 2 ^ l.length := by
  induction l with
  | nil => simp [bitsNat]
  | cons b l ih => rw [bitsNat_cons, List.length_cons, pow_succ]; cases b <;> simp <;> omega

/-- Digit `k` from the left is bit `length - 1 - k`. -/
theorem bitsNat_testBit (l : List Bool) : ∀ k < l.length, (bitsNat l).testBit (l.length - 1 - k) = l[k]! := by
  induction l with
  | nil => simp
  | cons b l ih =>
    intro k hk
    rw [bitsNat_cons, Nat.testBit_two_pow_mul_add _ (bitsNat_lt l)]
    cases k with
    | zero => cases b <;> simp
    | succ k =>
      have hk' : k < l.length := by simpa using hk
      rw [if_pos (by simp; omega), show (b :: l).length - 1 - (k + 1) = l.length - 1 - k by simp; omega, ih k hk']
      simp

@[simp] theorem wordBits_length (w : Word N) : (wordBits w).length = N := by simp [wordBits]

theorem wordBits_wordOfBits {digits : List Bool} (h : digits.length = N) : wordBits (wordOfBits N digits) = digits := by
  apply List.ext_getElem
  · simp [h]
  · intro k _ h2
    have hk := bitsNat_testBit digits k h2
    rw [h] at hk
    simp only [wordBits, wordOfBits, List.getElem_map, List.getElem_range, BitVec.getLsbD_ofNat]
    rw [hk]
    simp [h2]
    omega

theorem wordOfBits_wordBits (w : Word N) : wordOfBits N (wordBits w) = w := by
  apply BitVec.eq_of_getLsbD_eq
  intro i hi
  have hk := bitsNat_testBit (wordBits w) (N - 1 - i) (by rw [wordBits_length]; omega)
  rw [wordBits_length, show N - 1 - (N - 1 - i) = i by omega] at hk
  rw [wordOfBits, BitVec.getLsbD_ofNat, hk]
  simp [wordBits, hi, show N - 1 - i < N by omega, show N - 1 - (N - 1 - i) = i by omega]

@[simp] theorem UnitIn.bits_length (inp : UnitIn N) : inp.bits.length = 2 * N + 1 := by
  simp [UnitIn.bits]; omega

/-- The notation's `k` edges are the machine's run of `k` edges. -/
theorem stepMany_eq (k : Nat) (s : State) :
    stepMany k s =
      match run k s with
      | .next t => .ok t
      | .fault e => nomatch e
      | .refused r => .error (.stopped r) := by
  induction k generalizing s with
  | zero => rfl
  | succ k ih =>
    rw [stepMany, run_succ]
    rcases step s with t | e | r
    · exact ih t
    · cases e
    · rfl

/-- Everything that driving edges can do. -/
theorem drive_eq (r : Run) (es : List (Edge r.state.N)) :
    r.drive es =
      match run es.length { r.state with inputs := es ++ r.state.inputs } with
      | .next t => .ok ⟨t, r.emitted ++ es.map Edge.bits⟩
      | .fault e => nomatch e
      | .refused e => .error (.stopped e) := by
  simp only [Run.drive, bind, Except.bind, stepMany_eq]
  rcases run es.length { r.state with inputs := es ++ r.state.inputs } with t | e | e
  · rfl
  · cases e
  · rfl

/-- Rule R82: when `EXPECT` passes. -/
theorem expectHolds_iff (s : State) (id : UnitId) (q r : Word s.N) (count : Nat) (err : ErrCode) :
    expectHolds s id q r count err = true ↔
      (s.outputs id).done = true ∧ (s.outputs id).quotient = q ∧ (s.outputs id).remainder = r ∧
      (s.outputs id).opCount.toNat = count ∧ (s.outputs id).err = err.code := by
  simp [expectHolds, and_assoc]

end Sys2Proof.Machine
end

