-- ==== Sys2Proof/Tests/Slice0.lean ====
section
/-! SUPPORT. The model's own tests, and a witness for the hypotheses of every statement. The expected values are those of
spec/95_test_vectors.md (vectors L2.1 to L2.9, at `N = 4`) and of the tables of rules R75, R77 and R81, or are worked out
from the rules by hand where a comment says so. -/

namespace Sys2Proof.Tests

open Sys2Proof Sys2Proof.Machine

/-! ## Small states -/

/-- A unit of width 4 right after reset. -/
def unit4 : DivUnit 4 := DivUnit.reset 4

/-- A core of width 4 with these units and no promised input. -/
def core4 (rd nrd : DivUnit 4) : State := ⟨4, rd, nrd, []⟩

/-- The outcome is a next state of which `p` holds. -/
def nextIs (r : Host.Outcome State Fault Refusal) (p : State → Bool) : Bool :=
  match r with
  | .next s => p s
  | .fault _ | .refused _ => false

/-- The outcome is the next state `core4 rd nrd`. -/
def goesTo (r : Host.Outcome State Fault Refusal) (rd nrd : DivUnit 4) : Bool :=
  nextIs r fun s => decide (s = core4 rd nrd)

/-! ## Well-formedness (rules R5 and R80) -/

theorem test_wf_ok : Instr.wellFormed 4 (.rdStart 15 8) = true := by decide
theorem test_wf_width_one : Instr.wellFormed 1 .rdIdle = false := by decide
theorem test_wf_rd_dividend_too_wide : Instr.wellFormed 4 (.rdStart 16 1) = false := by decide
theorem test_wf_rd_divisor_too_wide : Instr.wellFormed 4 (.rdStart 1 16) = false := by decide
theorem test_wf_nrd_dividend_too_wide : Instr.wellFormed 4 (.nrdStart 16 1) = false := by decide
theorem test_wf_nrd_divisor_too_wide : Instr.wellFormed 4 (.nrdStart 1 16) = false := by decide

/-! ## Decoding: control vectors written out from rule R77's table -/

theorem test_decode_rdReset : decode ⟨.rd, 0b1010#4, 0, 0⟩ = .rdReset .iter false := by decide
theorem test_decode_rdIdle : decode ⟨.rd, 0b0000#4, 9, 2⟩ = .rdIdle := by decide
theorem test_decode_rdStart : decode ⟨.rd, 0b0001#4, 9, 2⟩ = .rdStart 9 2 := by decide
theorem test_decode_rdIter : decode ⟨.rd, 0b0010#4, 0, 0⟩ = .rdIter false := by decide
theorem test_decode_rdRsv : decode ⟨.rd, 0b0101#4, 0, 0⟩ = .rdRsv true := by decide
theorem test_decode_rdFix : decode ⟨.rd, 0b0110#4, 0, 0⟩ = .rdFix false := by decide
theorem test_decode_nrdReset : decode ⟨.nrd, 0b1101#4, 0, 0⟩ = .nrdReset .corr true := by decide
theorem test_decode_nrdIdle : decode ⟨.nrd, 0b0000#4, 0, 0⟩ = .nrdIdle := by decide
theorem test_decode_nrdStart : decode ⟨.nrd, 0b0001#4, 6, 3⟩ = .nrdStart 6 3 := by decide
theorem test_decode_nrdIter : decode ⟨.nrd, 0b0011#4, 0, 0⟩ = .nrdIter true := by decide
theorem test_decode_nrdCorr : decode ⟨.nrd, 0b0100#4, 0, 0⟩ = .nrdCorr false := by decide
theorem test_decode_nrdFix : decode ⟨.nrd, 0b0111#4, 0, 0⟩ = .nrdFix true := by decide

theorem test_encode_rdStart : encode (.rdStart 9 2) = ⟨.rd, 0b0001#4, 9, 2⟩ := by decide
theorem test_encode_nrdCorr : encode (.nrdCorr true) = ⟨.nrd, 0b0101#4, 0, 0⟩ := by decide
theorem test_encodeWord : encodeWord (.nrdFix false) = 0b10110 := by decide

/-- The words of the opcode table's rows, and the unit select bit of log 6. -/
theorem test_decodeTableWord :
    decodeTableWord 8 0x8 = some (.rdReset .idle false) ∧ decodeTableWord 8 0x0 = some .rdIdle ∧
    decodeTableWord 8 0x1 = some (.rdStart 0 0) ∧ decodeTableWord 8 0x2 = some (.rdIter false) ∧
    decodeTableWord 8 0x4 = some (.rdRsv false) ∧ decodeTableWord 8 0x6 = some (.rdFix false) ∧
    decodeTableWord 8 0x14 = some (.nrdCorr false) ∧ decodeTableWord 8 0x40 = none := by decide

/-- The word placed by the host is the row the next step applies. -/
theorem test_withFetchWord :
    (State.reset.withFetchWord 8 0x6).rdInstr = .rdFix false ∧
    (State.reset.withFetchWord 8 0x6).nrdInstr = .nrdIdle ∧
    (State.reset.withFetchWord 8 0x14).nrdInstr = .nrdCorr false ∧
    nextIs (step (State.reset.withFetchWord 8 0x6)) (fun s => s.rd.doneR && !s.nrd.doneR) = true := by decide

/-! ## The rows -/

/-- L2.1, first row. -/
theorem test_rdReset :
    nextIs (exec (.rdReset .iter true) (core4 { unit4 with ph := .iter, i := 2, quoR := 3 } unit4))
      (fun s => decide (s.rd.outputs = ⟨false, false, 0, 0, 0, 0⟩) && decide (s.nrd.draws = 0)) = true := by decide

/-- L2.1, second row. -/
theorem test_nrdReset :
    nextIs (exec (.nrdReset .idle false) (core4 unit4 { unit4 with doneR := true, errR := .widthOverflow }))
      (fun s => decide (s.nrd.outputs = ⟨false, false, 0, 0, 0, 0⟩) && decide (s.rd.draws = 0)) = true := by decide

/-- L2.2. -/
theorem test_rdIdle : goesTo (exec .rdIdle (core4 unit4 unit4)) unit4 unit4 = true := by decide

/-- L2.2, first row. -/
theorem test_nrdIdle :
    goesTo (exec .nrdIdle (core4 unit4 { unit4 with doneR := true, quoR := 2, cntR := 5 })) unit4
      { unit4 with doneR := true, quoR := 2, cntR := 5 } = true := by decide

/-- L2.3, `5 / -3`; the previous results stay (rule R28). -/
theorem test_rdStart_valid :
    goesTo (exec (.rdStart 0b0101 0b1101) (core4 { unit4 with doneR := true, errR := .divByZero, quoR := 1 } unit4))
      { unit4 with Q := 0b0101#4, M := 0b0011#4, sq := true, quoR := 1, ph := .iter } unit4 = true := by decide

/-- L2.4, third row: both errors apply, and the working registers are kept. -/
theorem test_rdStart_error :
    goesTo (exec (.rdStart 0b1000 0b0000) (core4 { unit4 with A := 5, quoR := 3 } unit4))
      { unit4 with A := 5, errR := .divByZero, doneR := true } unit4 = true := by decide

/-- L2.3, `-7 / -1`. -/
theorem test_nrdStart_valid :
    goesTo (exec (.nrdStart 0b1001 0b1111) (core4 unit4 unit4)) unit4
      { unit4 with Q := 0b0111#4, M := 0b0001#4, sr := true, ph := .iter } = true := by decide

/-- L2.4, last row: the overflowing `-8 / -1`. -/
theorem test_nrdStart_error :
    goesTo (exec (.nrdStart 0b1000 0b1111) (core4 unit4 { unit4 with cntR := 5, M := 1 })) unit4
      { unit4 with M := 1, errR := .widthOverflow, doneR := true } = true := by decide

/-- L2.5, first row: restore. -/
theorem test_rdIter_restore :
    goesTo (exec (.rdIter true) (core4 { unit4 with ph := .iter, Q := 0b0111#4, M := 0b0010#4 } unit4))
      { unit4 with ph := .iter, Q := 0b1110#4, M := 0b0010#4, i := 1, cnt := 1 } unit4 = true := by decide

/-- L2.5, last row: keep, last iteration. -/
theorem test_rdIter_last :
    goesTo (exec (.rdIter false)
      (core4 { unit4 with ph := .iter, A := 0b00010#5, Q := 0b1000#4, M := 0b0011#4, i := 3, cnt := 3 } unit4))
      { unit4 with ph := .fix, A := 0b00010#5, Q := 0b0001#4, M := 0b0011#4, i := 0, cnt := 4 } unit4 = true := by decide

/-- L2.6. -/
theorem test_rdRsv : exec (.rdRsv false) (core4 { unit4 with ph := .corr } unit4) = .refused .rdReservedPhase := rfl

/-- L2.7, third row. -/
theorem test_rdFix :
    goesTo (exec (.rdFix false)
      (core4 { unit4 with ph := .fix, Q := 0b0011#4, A := 0b00001#5, sq := true, cnt := 4 } unit4))
      { unit4 with
        Q := 0b0011#4, A := 0b00001#5, sq := true, cnt := 4, quoR := 0b1101#4, remR := 0b0001#4, cntR := 4,
        doneR := true } unit4 = true := by decide

/-- L2.7, fifth row: negating zero. -/
theorem test_rdFix_zero :
    goesTo (exec (.rdFix true) (core4 { unit4 with ph := .fix, sq := true, sr := true, cnt := 4 } unit4))
      { unit4 with sq := true, sr := true, cnt := 4, cntR := 4, doneR := true } unit4 = true := by decide

/-- L2.8, second row: add, quotient bit 0. -/
theorem test_nrdIter_add :
    goesTo (exec (.nrdIter false)
      (core4 unit4 { unit4 with ph := .iter, A := 0b11110#5, Q := 0b1110#4, M := 0b0010#4, i := 1, cnt := 1 })) unit4
      { unit4 with ph := .iter, A := 0b11111#5, Q := 0b1100#4, M := 0b0010#4, i := 2, cnt := 2 } = true := by decide

/-- L2.8, fourth row: subtract, last iteration. -/
theorem test_nrdIter_last :
    goesTo (exec (.nrdIter true)
      (core4 unit4 { unit4 with ph := .iter, Q := 0b0001#4, M := 0b0011#4, i := 3, cnt := 3 })) unit4
      { unit4 with ph := .corr, A := 0b11101#5, Q := 0b0010#4, M := 0b0011#4, i := 0, cnt := 4 } = true := by decide

/-- L2.9, first row. -/
theorem test_nrdCorr_add :
    goesTo (exec (.nrdCorr false) (core4 unit4 { unit4 with ph := .corr, A := 0b11101#5, M := 0b0011#4, cnt := 4 })) unit4
      { unit4 with ph := .fix, A := 0b00000#5, M := 0b0011#4, cnt := 5 } = true := by decide

/-- L2.9, fourth row. -/
theorem test_nrdCorr_none :
    goesTo (exec (.nrdCorr true) (core4 unit4 { unit4 with ph := .corr, A := 0b00001#5, M := 0b0010#4, cnt := 4 })) unit4
      { unit4 with ph := .fix, A := 0b00001#5, M := 0b0010#4, cnt := 4 } = true := by decide

/-- The example of rule R134, `5 / -3`. -/
theorem test_nrdFix :
    goesTo (exec (.nrdFix false)
      (core4 unit4 { unit4 with ph := .fix, Q := 0b0001#4, A := 0b00010#5, sq := true, cnt := 4 })) unit4
      { unit4 with
        Q := 0b0001#4, A := 0b00010#5, sq := true, cnt := 4, quoR := 0b1111#4, remR := 0b0010#4, cntR := 4,
        doneR := true } = true := by decide

/-- Both units step at one edge (rule R82): program P2's edge e1. -/
theorem test_step_both_units :
    nextIs (step { core4 unit4 unit4 with inputs := [⟨false, ⟨true, 0b1000#4, 0⟩, ⟨true, 0b1000#4, 0⟩⟩] })
      (fun s => decide (s = core4 { unit4 with errR := .divByZero, doneR := true }
        { unit4 with errR := .divByZero, doneR := true })) = true := by decide

/-! ## Widths (rule R6) and the stimulus text (rules R81, R84) -/

theorem test_widths : IW 4 = 2 ∧ CW 4 = 3 ∧ IW 2 = 1 := by decide

theorem test_wordOfBits : wordOfBits 4 [true, false, false, true] = 0b1001#4 := by decide

/-- Program P1's edge e7: `0 | 0 0000 0000 | 1 1001 0010`. -/
theorem test_edge_bits :
    (Edge.mk (N := 4) false ⟨false, 0, 0⟩ ⟨true, 0b1001#4, 0b0010#4⟩).bits =
      [false] ++ [false, false, false, false, false, false, false, false, false] ++
      [true, true, false, false, true, false, false, true, false] := by decide

theorem test_literal_too_long :
    (match (Opnd.bin [true, false, true]).word 2 with | .error .wrongDigitCount => true | _ => false) = true := by decide

theorem test_readOpnd_minus_seven : readOpnd ['#', '-', '7'] = some (.dec (-7)) := by decide

/-! ## Witnesses: for each statement with hypotheses, values that meet all of them -/

/-- `1 / 1` at `N = 2` after one iteration, at CORR and at FIX, in either unit: the traces are worked out by hand from rules
R101, R102, R131 and R132. -/
def rdMid : DivUnit 2 := { DivUnit.reset 2 with ph := .iter, A := 0, Q := 2, M := 1, i := 1, cnt := 1 }

def rdEnd : DivUnit 2 := { DivUnit.reset 2 with ph := .fix, A := 0, Q := 1, M := 1, i := 0, cnt := 2 }

def nrdMid : DivUnit 2 := { DivUnit.reset 2 with ph := .iter, A := 0b111#3, Q := 2, M := 1, i := 1, cnt := 1 }

def nrdLast : DivUnit 2 := { DivUnit.reset 2 with ph := .corr, A := 0, Q := 1, M := 1, i := 0, cnt := 2 }

def nrdEnd : DivUnit 2 := { DivUnit.reset 2 with ph := .fix, A := 0, Q := 1, M := 1, i := 0, cnt := 2 }

/-- A unit that is busy with no error shows nothing that `StatusOk` restricts. -/
theorem statusOk_busy {count : Nat → Nat → Nat} {u : DivUnit 2} (hd : u.doneR = false) (he : u.errR = .none) :
    StatusOk count u where
  err_legal := by rw [he]; decide
  busy_clear := fun _ => ⟨hd, he⟩
  err_zero := fun h => absurd he h
  result := fun h => by rw [hd] at h; cases h

theorem rdMid_inv : RdInv rdMid where
  status := statusOk_busy rfl rfl
  phase_legal := by decide
  iter := fun _ => ⟨by decide, 1,
    { dividend_lt := by decide, divisor_pos := by decide, divisor_lt := by decide, count := by decide,
      quotient := by decide, acc := by decide }⟩
  fix := fun h => absurd h (by decide)

theorem rdEnd_inv : RdInv rdEnd where
  status := statusOk_busy rfl rfl
  phase_legal := by decide
  iter := fun h => absurd h (by decide)
  fix := fun _ => ⟨by decide, 1, ⟨by decide, by decide, by decide, by decide, by decide⟩⟩

theorem nrdMid_inv : NrdInv nrdMid where
  status := statusOk_busy rfl rfl
  iter := fun _ => ⟨by decide, 1,
    { dividend_lt := by decide, divisor_pos := by decide, divisor_lt := by decide, count := by decide,
      quotient := by decide, acc := by decide }⟩
  corr := fun h => absurd h (by decide)
  fix := fun h => absurd h (by decide)

theorem nrdLast_inv : NrdInv nrdLast where
  status := statusOk_busy rfl rfl
  iter := fun h => absurd h (by decide)
  corr := fun _ => ⟨1,
    { dividend_lt := by decide, divisor_pos := by decide, divisor_lt := by decide, count := by decide,
      quotient := by decide, acc := by decide }⟩
  fix := fun h => absurd h (by decide)

theorem nrdEnd_inv : NrdInv nrdEnd where
  status := statusOk_busy rfl rfl
  iter := fun h => absurd h (by decide)
  corr := fun h => absurd h (by decide)
  fix := fun _ => ⟨1, ⟨by decide, by decide, by decide, by decide, by decide⟩, by decide⟩

theorem witness_RdStartInitialises :
    2 ≤ (core4 unit4 unit4).N ∧ IsOperand 4 (BitVec.toInt (0b1001#4)) ∧ IsOperand 4 (BitVec.toInt (0b0111#4)) ∧
    BitVec.toInt (0b0111#4) ≠ 0 := by decide

theorem witness_NrdStartInitialises :
    2 ≤ (core4 unit4 unit4).N ∧ IsOperand 4 (BitVec.toInt (0b0000#4)) ∧ IsOperand 4 (BitVec.toInt (0b1001#4)) ∧
    BitVec.toInt (0b1001#4) ≠ 0 := by decide

/-- Each clause, at a zero divisor, a `MINW` dividend and a `MINW` divisor. -/
theorem witness_StartRowsReportErrors :
    2 ≤ (core4 unit4 unit4).N ∧ BitVec.toInt (0b0000#4) = 0 ∧
    (BitVec.toInt (0b1111#4) ≠ 0 ∧ BitVec.toInt (0b1000#4) = -2 ^ (4 - 1)) ∧
    (BitVec.toInt (0b1000#4) ≠ 0 ∧ BitVec.toInt (0b1000#4) = -2 ^ (4 - 1)) := by decide

theorem witness_RdIterOneRestoringIteration : 2 ≤ (core4 { unit4 with ph := .iter } unit4).N := by decide

theorem witness_NrdIterOneNonRestoringIteration : 2 ≤ (core4 unit4 { unit4 with ph := .iter }).N := by decide

theorem witness_RdReservedPhaseRefusedAndNeverEntered :
    exec .rdIdle (core4 unit4 unit4) = .next (core4 unit4 unit4) ∧
    run 1 (core4 unit4 unit4) = .next (core4 unit4 unit4) ∧ (core4 unit4 unit4).rd.ph ≠ .corr :=
  ⟨rfl, rfl, by decide⟩

theorem witness_RowsCoverWithoutOverlap :
    ∃ r ∈ controlTable, r.hits .nrd 0b1111#4 = true :=
  ⟨⟨.nrdReset, .nrd, 0b1000#4, 0b1000#4⟩, by decide, by decide⟩

theorem witness_DecodeEncodeAgree :
    (decode ⟨.rd, 0b0001#4, 9, 2⟩).row = .rdStart ∧ (decode ⟨.nrd, 0b0001#4, 9, 2⟩).row = .nrdStart := by decide

theorem witness_EdgeEncodingRoundTrip : (List.replicate 11 true).length = 4 * 2 + 3 := by decide

/-- Each clause at the ends of its range, at `N = 4`. -/
theorem witness_OperandLiterals :
    2 ≤ 4 ∧ [true, false, true].length ≠ 4 ∧ [true, false, true, true, false].length ≠ 4 ∧
    (-2 ^ (4 - 1) ≤ (-8 : Int) ∧ (-8 : Int) ≤ 2 ^ (4 - 1) - 1) ∧ (-2 ^ (4 - 1) ≤ (7 : Int) ∧ (7 : Int) ≤ 2 ^ (4 - 1) - 1) ∧
    (-9 : Int) < -2 ^ (4 - 1) ∧ 2 ^ (4 - 1) - 1 < (8 : Int) := by decide

/-- A run that has emitted nothing, in the state `s`. -/
def runAt (s : State) : Run := ⟨s, []⟩

/-- Each clause: operands, an edge that is driven, an edge that the machine refuses, an operand that the notation refuses,
and a unit that shows `done`. -/
theorem witness_StatementsEmitTheirEdges :
    ((Opnd.dec (-7)).word 4 = .ok 0b1001#4 ∧ (Opnd.bin [false, false, true, false]).word 4 = .ok 0b0010#4) ∧
    ((Stmt.tick 1).edges 4 = .ok [Edge.quiet 4] ∧
      run 1 { core4 unit4 unit4 with inputs := [Edge.quiet 4] } = .next (core4 unit4 unit4)) ∧
    run 1 { core4 { unit4 with ph := .corr } unit4 with inputs := [Edge.quiet 4] } = .refused .rdReservedPhase ∧
    (Stmt.rdiv (.dec 8) (.dec 1)).edges 4 = .error .decimalOutOfRange ∧
    ((core4 { unit4 with doneR := true } unit4).outputs .rd).done = true :=
  ⟨⟨rfl, rfl⟩, ⟨rfl, rfl⟩, rfl, rfl, rfl⟩

/-- Each clause: a statement that is its own expansion, a program that runs and one that fails. -/
theorem witness_ProgramsRunTheirStatements :
    Stmt.reset.expand = [.reset] ∧ runProgram [.tick 0] (core4 unit4 unit4) = .ok (runAt (core4 unit4 unit4)) ∧
    runProgram [.rdiv (.dec 8) (.dec 1)] (core4 unit4 unit4) = .error .decimalOutOfRange :=
  ⟨rfl, rfl, rfl⟩

theorem witness_OneInvalidWord : 2 ≤ 2 ∧ ¬ IsOperand 2 (BitVec.toInt (0b10#2)) ∧ IsOperand 2 (BitVec.toInt (0b11#2)) := by
  decide

/-- Each clause at the ends of its range, at `N = 4`. -/
theorem witness_MagnitudeOfWord :
    2 ≤ 4 ∧ BitVec.toNat (0b0111#4) < 2 ^ (4 - 1) ∧ 2 ^ (4 - 1) ≤ BitVec.toNat (0b1000#4) ∧
    IsOperand 4 (BitVec.toInt (0b1001#4)) ∧ IsOperand 4 (BitVec.toInt (0b0111#4)) := by decide

theorem witness_SignCorrectionOfMagnitude :
    2 ≤ 4 ∧ BitVec.toNat (0b0111#4) < 2 ^ (4 - 1) ∧ BitVec.toNat (0b0000#4) < 2 ^ (4 - 1) := by decide

theorem witness_ShiftOfDoubleRegister : 2 ≤ 2 := by decide

/-- L2.5, first row, whose trial difference is negative. -/
theorem witness_RestoreIsAddingBack :
    2 ≤ 4 ∧ exec (.rdIter false) (core4 { unit4 with ph := .iter, Q := 0b0111#4, M := 0b0010#4 } unit4) =
      .next (core4 { unit4 with ph := .iter, Q := 0b1110#4, M := 0b0010#4, i := 1, cnt := 1 } unit4) ∧
    2 ^ 4 ≤ (shiftAcc (0b00000#5) (0b0111#4) - zextAcc (0b0010#4)).toNat :=
  ⟨by decide, rfl, by decide⟩

/-- Both ends of the range, at `N = 4` and `M = 7`. -/
theorem witness_SignBeforeShiftIsSignAfter :
    2 ≤ 4 ∧ BitVec.toNat (0b0111#4) ≤ 2 ^ (4 - 1) - 1 ∧
    (-(BitVec.toNat (0b0111#4) : Int) ≤ BitVec.toInt (0b11001#5) ∧ BitVec.toInt (0b11001#5) ≤ BitVec.toNat (0b0111#4) - 1) ∧
    (-(BitVec.toNat (0b0111#4) : Int) ≤ BitVec.toInt (0b00110#5) ∧ BitVec.toInt (0b00110#5) ≤ BitVec.toNat (0b0111#4) - 1) := by
  decide

theorem witness_TruncatingDivisionLaw : 2 ≤ 4 ∧ IsOperand 4 (-7) ∧ IsOperand 4 2 ∧ (2 : Int) ≠ 0 := by decide

/-- The clause of the next state and the clause of the refusal. -/
theorem witness_StepRunsDecodedRows :
    (2 ≤ (core4 unit4 unit4).N ∧ (core4 unit4 unit4).rdInstr = .rdIdle ∧ (core4 unit4 unit4).nrdInstr = .nrdIdle ∧
      exec .rdIdle (core4 unit4 unit4) = .next (core4 unit4 unit4) ∧
      exec .nrdIdle (core4 unit4 unit4) = .next (core4 unit4 unit4)) ∧
    ((core4 { unit4 with ph := .corr } unit4).rdInstr = .rdRsv false ∧
      exec (.rdRsv false) (core4 { unit4 with ph := .corr } unit4) = .refused .rdReservedPhase) :=
  ⟨⟨by decide, by decide, by decide, rfl, rfl⟩, by decide, rfl⟩

theorem witness_RowsWriteOnlyTheirUnit :
    exec .rdIdle (core4 unit4 unit4) = .next (core4 unit4 unit4) ∧ Instr.unit .rdIdle = .rd ∧
    exec .nrdIdle (core4 unit4 unit4) = .next (core4 unit4 unit4) ∧ Instr.unit .nrdIdle = .nrd :=
  ⟨rfl, rfl, rfl, rfl⟩

theorem witness_RowOrderIsUnobservable :
    Instr.unit (.rdStart 7 2) = .rd ∧ Instr.unit (.nrdStart 6 3) = .nrd := ⟨rfl, rfl⟩

theorem witness_WidthNeverChanges : step (core4 unit4 unit4) = .next (core4 unit4 unit4) := rfl

/-- Rule R231 with both units in the middle of an operation and `start = 1`. -/
theorem witness_ResetEdgeAbandonsEverything :
    2 ≤ 2 ∧ (Edge.mk (N := 2) true ⟨true, 1, 1⟩ ⟨true, 1, 1⟩).rst = true := by decide

/-- A busy unit with different inputs, and an idle one without `start`. -/
theorem witness_InputsMatterOnlyAtAcceptingEdge :
    (rdMid.ph ≠ .idle ∨ ((UnitIn.mk (N := 2) true 1 1).start = false ∧ (UnitIn.mk (N := 2) false 3 2).start = false)) ∧
    ((DivUnit.reset 2).ph ≠ .idle ∨
      ((UnitIn.mk (N := 2) false 1 1).start = false ∧ (UnitIn.mk (N := 2) false 3 2).start = false)) := by decide

/-- The four clauses: RD in ITER, NRD in ITER and in CORR, and an accepting edge without an error in each unit. -/
theorem witness_OutputsChangeTogether :
    (∃ rd' nrd' : DivUnit 2, step ⟨2, rdMid, nrdMid, [⟨false, ⟨true, 1, 1⟩, ⟨false, 0, 0⟩⟩]⟩ = .next ⟨2, rd', nrd', []⟩) ∧
    (∃ rd' nrd' : DivUnit 2, step ⟨2, rdMid, nrdLast, [⟨false, ⟨false, 0, 0⟩, ⟨false, 0, 0⟩⟩]⟩ =
      .next ⟨2, rd', nrd', []⟩) ∧
    (∃ rd' nrd' : DivUnit 2, step ⟨2, DivUnit.reset 2, DivUnit.reset 2, [⟨false, ⟨true, 1, 1⟩, ⟨true, 1, 1⟩⟩]⟩ =
      .next ⟨2, rd', nrd', []⟩) ∧ chk (1#2) (1#2) = .none :=
  ⟨⟨_, _, rfl⟩, ⟨_, _, rfl⟩, ⟨_, _, rfl⟩, by decide⟩

theorem witness_OutputsOfRegisters :
    ({ unit4 with errR := .divByZero } : DivUnit 4).errR = .divByZero ∧
    ({ unit4 with errR := .widthOverflow } : DivUnit 4).errR = .widthOverflow ∧
    ({ unit4 with errR := .reserved } : DivUnit 4).errR = .reserved ∧ unit4.errR = .none := by decide

/-- Rule R5's smallest width. -/
theorem witness_ResetStateIsGood : 2 ≤ 2 := by decide

theorem witness_EveryEdgeKeepsGoodState :
    State.Inv ⟨2, rdMid, nrdMid, []⟩ ∧ ∃ t : State, step ⟨2, rdMid, nrdMid, []⟩ = .next t :=
  ⟨⟨by decide, rdMid_inv, nrdMid_inv⟩, _, rfl⟩

theorem witness_GoodStateAlwaysSteps : State.Inv ⟨2, rdEnd, nrdLast, []⟩ := ⟨by decide, rdEnd_inv, nrdLast_inv⟩

/-- Each clause: both units in ITER, NRD in CORR, both in FIX. -/
theorem witness_WorkingValuesInRange :
    (State.Inv ⟨2, rdMid, nrdMid, []⟩ ∧ rdMid.ph = .iter ∧ nrdMid.ph = .iter) ∧
    (State.Inv ⟨2, rdMid, nrdLast, []⟩ ∧ nrdLast.ph = .corr) ∧
    (State.Inv ⟨2, rdEnd, nrdEnd, []⟩ ∧ rdEnd.ph = .fix ∧ nrdEnd.ph = .fix) :=
  ⟨⟨⟨by decide, rdMid_inv, nrdMid_inv⟩, rfl, rfl⟩, ⟨⟨by decide, rdMid_inv, nrdLast_inv⟩, rfl⟩,
    ⟨by decide, rdEnd_inv, nrdEnd_inv⟩, rfl, rfl⟩

/-- `-7 / 2` on both units of a core of width 4. -/
def dividing : State := { core4 unit4 unit4 with inputs := [⟨false, ⟨true, 0b1001#4, 2⟩, ⟨true, 0b1001#4, 2⟩⟩] }

theorem witness_RdDivides :
    2 ≤ dividing.N ∧ dividing.rd.ph = .idle ∧ dividing.NoReset (dividing.N + 2) ∧ (dividing.edgeAt 0).rd.start = true ∧
    IsOperand dividing.N (dividing.edgeAt 0).rd.dividend.toInt ∧
    IsOperand dividing.N (dividing.edgeAt 0).rd.divisor.toInt ∧ (dividing.edgeAt 0).rd.divisor.toInt ≠ 0 := by decide

theorem witness_NrdDivides :
    2 ≤ dividing.N ∧ dividing.rd.ph ≠ .corr ∧ dividing.nrd.ph = .idle ∧ dividing.NoReset (dividing.N + 3) ∧
    (dividing.edgeAt 0).nrd.start = true ∧ IsOperand dividing.N (dividing.edgeAt 0).nrd.dividend.toInt ∧
    IsOperand dividing.N (dividing.edgeAt 0).nrd.divisor.toInt ∧ (dividing.edgeAt 0).nrd.divisor.toInt ≠ 0 := by decide

theorem witness_RdPathAndLoopInvariant :
    2 ≤ dividing.N ∧ dividing.rd.ph = .idle ∧ dividing.NoReset (dividing.N + 2) ∧ (dividing.edgeAt 0).rd.start = true ∧
    IsOperand dividing.N (dividing.edgeAt 0).rd.dividend.toInt ∧
    IsOperand dividing.N (dividing.edgeAt 0).rd.divisor.toInt ∧ (dividing.edgeAt 0).rd.divisor.toInt ≠ 0 ∧
    0 ≤ dividing.N ∧ dividing.N ≤ dividing.N := by decide

theorem witness_NrdPathAndLoopInvariant :
    2 ≤ dividing.N ∧ dividing.rd.ph ≠ .corr ∧ dividing.nrd.ph = .idle ∧ dividing.NoReset (dividing.N + 3) ∧
    (dividing.edgeAt 0).nrd.start = true ∧ IsOperand dividing.N (dividing.edgeAt 0).nrd.dividend.toInt ∧
    IsOperand dividing.N (dividing.edgeAt 0).nrd.divisor.toInt ∧ (dividing.edgeAt 0).nrd.divisor.toInt ≠ 0 ∧
    1 ≤ dividing.N ∧ dividing.N ≤ dividing.N := by decide

/-- The clause of an error and the clause without one. -/
theorem witness_UnitsAgree :
    2 ≤ 4 ∧ unit4.ph = .idle ∧ (∀ e ∈ [Edge.quiet 4, Edge.quiet 4], e.rst = false) ∧
    chk (0b1000#4) (0b1111#4) ≠ .none ∧ chk (0b1001#4) (0b0111#4) = .none := by decide

/-- Two machines whose RD sees the same and whose NRD does not, and the other way about. -/
theorem witness_UnitsDoNotInterfere :
    rdMid.ph ≠ .corr ∧ rdEnd.ph ≠ .corr ∧
    (∀ j : Nat,
      (([Edge.mk (N := 2) false ⟨true, 1, 1⟩ ⟨false, 0, 0⟩].drop j).headD (Edge.quiet 2)).rst =
        (([Edge.mk (N := 2) false ⟨true, 1, 1⟩ ⟨true, 1, 1⟩].drop j).headD (Edge.quiet 2)).rst ∧
      (([Edge.mk (N := 2) false ⟨true, 1, 1⟩ ⟨false, 0, 0⟩].drop j).headD (Edge.quiet 2)).rd =
        (([Edge.mk (N := 2) false ⟨true, 1, 1⟩ ⟨true, 1, 1⟩].drop j).headD (Edge.quiet 2)).rd) ∧
    (∀ j : Nat,
      (([Edge.mk (N := 2) false ⟨true, 1, 1⟩ ⟨true, 1, 1⟩].drop j).headD (Edge.quiet 2)).rst =
        (([Edge.mk (N := 2) false ⟨false, 0, 0⟩ ⟨true, 1, 1⟩].drop j).headD (Edge.quiet 2)).rst ∧
      (([Edge.mk (N := 2) false ⟨true, 1, 1⟩ ⟨true, 1, 1⟩].drop j).headD (Edge.quiet 2)).nrd =
        (([Edge.mk (N := 2) false ⟨false, 0, 0⟩ ⟨true, 1, 1⟩].drop j).headD (Edge.quiet 2)).nrd) := by
  refine ⟨by decide, by decide, fun j => ?_, fun j => ?_⟩ <;> cases j <;> simp

/-- Two idle units that show the same and hold different leftovers. -/
theorem witness_LeftoversNeverShow :
    2 ≤ 4 ∧ unit4.ph = .idle ∧ ({ unit4 with A := 5, Q := 9, cnt := 3, sq := true, draws := 7 } : DivUnit 4).ph = .idle ∧
    unit4.outputs = ({ unit4 with A := 5, Q := 9, cnt := 3, sq := true, draws := 7 } : DivUnit 4).outputs := by decide

theorem witness_BusyUnitsFinish :
    State.Inv ⟨2, rdMid, nrdMid, []⟩ ∧ rdMid.ph ≠ .idle ∧ nrdMid.ph ≠ .idle ∧
    State.NoReset ⟨2, rdMid, nrdMid, []⟩ (2 + 1) ∧ State.NoReset ⟨2, rdMid, nrdMid, []⟩ (2 + 2) :=
  ⟨⟨by decide, rdMid_inv, nrdMid_inv⟩, by decide, by decide, by decide, by decide⟩

/-- Each unit, in the middle of an operation. -/
theorem witness_WaitOnBusyUnitEnds :
    State.Inv ⟨2, rdMid, nrdMid, []⟩ ∧ ((State.mk 2 rdMid nrdMid []).outputs .rd).busy = true ∧
    ((State.mk 2 rdMid nrdMid []).outputs .nrd).busy = true :=
  ⟨⟨by decide, rdMid_inv, nrdMid_inv⟩, rfl, rfl⟩

end Sys2Proof.Tests
end

section
/-! PROOFS of the scope statements: progress from a good state, and the constant width. -/

namespace Sys2Proof.Machine

/-- Settles O37: a good state has a legal width and keeps RD out of the reserved phase (rules R5 and R103), and
`step_of_legal` needs no more. -/
theorem goodStateAlwaysSteps : Obligations.GoodStateAlwaysSteps := by
  intro s hs
  exact ⟨s.after, step_of_legal hs.width hs.rd.phase_legal⟩

/-- Settles O30: the only next state that a step can answer is `s.after`, which carries the old width (E1, log 12). -/
theorem widthNeverChanges : Obligations.WidthNeverChanges := by
  intro s t h
  obtain ⟨-, -, rfl⟩ := step_next h
  rfl

end Sys2Proof.Machine
end

section
/-! PROOF that leftovers never show (rules R32, R33 and R170): the relation `Alike`, which every edge keeps. -/

namespace Sys2Proof.Machine

variable {N : Nat}

/-- `u` with another count of reset draws, and all registers of the spec the same. -/
def DivUnit.setDraws (d : Nat) (u : DivUnit N) : DivUnit N := { u with draws := d }

/-- Two units that nothing outside can tell apart, now or later: either both are idle and show the same, or one is the other
but for its count of draws. -/
def DivUnit.Alike (u v : DivUnit N) : Prop :=
  (u.ph = .idle ∧ v.ph = .idle ∧ u.outputs = v.outputs) ∨ ∃ d, v = u.setDraws d

theorem DivUnit.Alike.of_idle {u v : DivUnit N} (hu : u.ph = .idle) (hv : v.ph = .idle)
    (h : u.outputs = v.outputs) : u.Alike v := .inl ⟨hu, hv, h⟩

theorem DivUnit.alike_setDraws (u : DivUnit N) (d : Nat) : u.Alike (u.setDraws d) := .inr ⟨d, rfl⟩

@[simp] theorem DivUnit.setDraws_ph (d : Nat) (u : DivUnit N) : (u.setDraws d).ph = u.ph := rfl

/-- The count of draws is no input of the outputs (rule R30). -/
@[simp] theorem DivUnit.setDraws_outputs (d : Nat) (u : DivUnit N) : (u.setDraws d).outputs = u.outputs := rfl

theorem DivUnit.Alike.outputs_eq {u v : DivUnit N} (h : u.Alike v) : u.outputs = v.outputs := by
  obtain ⟨-, -, h⟩ | ⟨d, rfl⟩ := h
  · exact h
  · exact (setDraws_outputs d u).symm

/-! ## Only a reset reads the count of draws -/

theorem DivUnit.endIteration_setDraws (exit : Phase) (d : Nat) (u : DivUnit N) :
    (u.setDraws d).endIteration exit = (u.endIteration exit).setDraws d := by
  by_cases h : u.i.toNat = N - 1
  · simp [endIteration, setDraws, h]
  · simp [endIteration, setDraws, h]

theorem DivUnit.restoringIter_setDraws (d : Nat) (u : DivUnit N) :
    (u.setDraws d).restoringIter = u.restoringIter.setDraws d := by
  rw [restoringIter_eq, restoringIter_eq, ← endIteration_setDraws]
  rfl

theorem DivUnit.nonRestoringIter_setDraws (d : Nat) (u : DivUnit N) :
    (u.setDraws d).nonRestoringIter = u.nonRestoringIter.setDraws d := by
  rw [nonRestoringIter_eq, nonRestoringIter_eq, ← endIteration_setDraws]
  rfl

theorem DivUnit.correct_setDraws (d : Nat) (u : DivUnit N) : (u.setDraws d).correct = u.correct.setDraws d := by
  cases h : signFlag u.A
  · simp [correct, setDraws, h]
  · simp [correct, setDraws, countOne, h]

theorem DivUnit.writeResult_setDraws (d : Nat) (u : DivUnit N) :
    (u.setDraws d).writeResult = u.writeResult.setDraws d := rfl

theorem DivUnit.accept_setDraws (a b : Word N) (d : Nat) (u : DivUnit N) :
    (u.setDraws d).accept a b = (u.accept a b).setDraws d := by
  unfold accept
  split <;> rfl

theorem DivUnit.rdEdge_setDraws (inp : UnitIn N) (d : Nat) (u : DivUnit N) :
    rdEdge false inp (u.setDraws d) = (rdEdge false inp u).setDraws d := by
  cases hph : u.ph with
  | idle => cases hs : inp.start <;> simp [rdEdge, hph, hs, accept_setDraws]
  | iter => simp [rdEdge, hph, restoringIter_setDraws]
  | corr => simp [rdEdge, hph]
  | fix => simp [rdEdge, hph, writeResult_setDraws]

theorem DivUnit.nrdEdge_setDraws (inp : UnitIn N) (d : Nat) (u : DivUnit N) :
    nrdEdge false inp (u.setDraws d) = (nrdEdge false inp u).setDraws d := by
  cases hph : u.ph with
  | idle => cases hs : inp.start <;> simp [nrdEdge, hph, hs, accept_setDraws]
  | iter => simp [nrdEdge, hph, nonRestoringIter_setDraws]
  | corr => simp [nrdEdge, hph, correct_setDraws]
  | fix => simp [nrdEdge, hph, writeResult_setDraws]

/-! ## Every edge keeps units alike -/

/-- After a reset edge both units are idle and show the reset values, whatever was drawn (rules R31 and R32). -/
theorem DivUnit.hardReset_alike (id : UnitId) (u v : DivUnit N) : (u.hardReset id).Alike (v.hardReset id) :=
  .of_idle rfl rfl rfl

/-- An accepting edge overwrites every working register, or enters an error that reads none of them (rules R101, R131, R203);
the result registers, which a valid one keeps, are shown. -/
theorem DivUnit.accept_alike {u v : DivUnit N} (hu : u.ph = .idle) (hv : v.ph = .idle) (h : u.outputs = v.outputs)
    (a b : Word N) : (u.accept a b).Alike (v.accept a b) := by
  have hquo : u.quoR = v.quoR := congrArg Outputs.quotient h
  have hrem : u.remR = v.remR := congrArg Outputs.remainder h
  have hcnt : u.cntR = v.cntR := congrArg Outputs.opCount h
  unfold accept
  split
  · right
    exact ⟨v.draws, by simp [initialise, setDraws, hquo, hrem, hcnt]⟩
  · exact .of_idle hu hv (by simp [outputs, completeWithError, hu, hv])

/-- An edge without reset from IDLE, in either unit (rules R100, R101, R130 and R131). -/
theorem DivUnit.idleEdge_alike {u v : DivUnit N} (hu : u.ph = .idle) (hv : v.ph = .idle) (h : u.outputs = v.outputs)
    (inp : UnitIn N) :
    (if inp.start then u.accept inp.dividend inp.divisor else u).Alike
      (if inp.start then v.accept inp.dividend inp.divisor else v) := by
  split
  · exact accept_alike hu hv h _ _
  · exact .of_idle hu hv h

theorem DivUnit.Alike.rdEdge {u v : DivUnit N} (h : u.Alike v) (rst : Bool) (inp : UnitIn N) :
    (rdEdge rst inp u).Alike (rdEdge rst inp v) := by
  cases rst with
  | true => exact hardReset_alike .rd u v
  | false =>
    obtain ⟨hu, hv, hout⟩ | ⟨d, rfl⟩ := h
    · simpa [Machine.rdEdge, hu, hv] using idleEdge_alike hu hv hout inp
    · rw [rdEdge_setDraws]
      exact alike_setDraws _ d

theorem DivUnit.Alike.nrdEdge {u v : DivUnit N} (h : u.Alike v) (rst : Bool) (inp : UnitIn N) :
    (nrdEdge rst inp u).Alike (nrdEdge rst inp v) := by
  cases rst with
  | true => exact hardReset_alike .nrd u v
  | false =>
    obtain ⟨hu, hv, hout⟩ | ⟨d, rfl⟩ := h
    · simpa [Machine.nrdEdge, hu, hv] using idleEdge_alike hu hv hout inp
    · rw [nrdEdge_setDraws]
      exact alike_setDraws _ d

theorem DivUnit.Alike.rdRun (k : Nat) : ∀ {u v : DivUnit N} (ins : List (Edge N)), u.Alike v →
    (rdRun k ins u).Alike (rdRun k ins v) := by
  induction k with
  | zero => intro u v ins h; exact h
  | succ k ih => intro u v ins h; exact ih ins.tail (h.rdEdge _ _)

theorem DivUnit.Alike.nrdRun (k : Nat) : ∀ {u v : DivUnit N} (ins : List (Edge N)), u.Alike v →
    (nrdRun k ins u).Alike (nrdRun k ins v) := by
  induction k with
  | zero => intro u v ins h; exact h
  | succ k ih => intro u v ins h; exact ih ins.tail (h.nrdEdge _ _)

/-- Settles O45: idle units that show the same are alike, every edge keeps them alike, and alike units show the same. -/
theorem leftoversNeverShow : Obligations.LeftoversNeverShow := by
  intro N k rd nrd rd₀ nrd₀ ins hN hrd hrd₀ hnrd hnrd₀ hRd hNrd
  have legal : ∀ {u : DivUnit N}, u.ph = .idle → u.ph ≠ .corr := fun h => by simp [h]
  exact ⟨_, _, _, _, run_eq hN k rd nrd ins (legal hrd), run_eq hN k rd₀ nrd₀ ins (legal hrd₀),
    ((DivUnit.Alike.of_idle hrd hrd₀ hRd).rdRun k ins).outputs_eq,
    ((DivUnit.Alike.of_idle hnrd hnrd₀ hNrd).nrdRun k ins).outputs_eq⟩

end Sys2Proof.Machine
end

section
/-! PROOFS of the statements about reset values, outputs and the reset state (rules R30, R31 and R75). -/

namespace Sys2Proof.Machine

variable {N : Nat}

theorem exec_rdReset (ph : Phase) (start : Bool) (s : State) :
    exec (.rdReset ph start) s = .next (s.setRd (s.rd.hardReset .rd)) := rfl

theorem exec_nrdReset (ph : Phase) (start : Bool) (s : State) :
    exec (.nrdReset ph start) s = .next (s.setNrd (s.nrd.hardReset .nrd)) := rfl

/-- Rule R31: the six registers to which a reset edge gives a value. -/
theorem DivUnit.hardReset_values (id : UnitId) (u : DivUnit N) :
    (u.hardReset id).ph = .idle ∧ (u.hardReset id).doneR = false ∧ (u.hardReset id).errR = .none ∧
    (u.hardReset id).quoR = 0 ∧ (u.hardReset id).remR = 0 ∧ (u.hardReset id).cntR = 0 :=
  ⟨rfl, rfl, rfl, rfl, rfl, rfl⟩

/-- Settles O1: both RESET rows are `hardReset` of their unit, which does not look at the phase or at `start`. -/
theorem resetRowsWriteResetValues : Obligations.ResetRowsWriteResetValues := by
  intro s ph start
  exact ⟨⟨_, exec_rdReset ph start s, DivUnit.hardReset_values .rd s.rd⟩,
    ⟨_, exec_nrdReset ph start s, DivUnit.hardReset_values .nrd s.nrd⟩⟩

theorem phase_code_eq_zero_iff (p : Phase) : p.code = 0b00#2 ↔ p = .idle := by
  cases p <;> decide

theorem DivUnit.outputs_busy (u : DivUnit N) : u.outputs.busy = true ↔ u.ph ≠ .idle := decide_eq_true_iff

theorem DivUnit.outputs_err (u : DivUnit N) : u.outputs.err = u.errR.code := rfl

/-- Settles O34: every output but `busy` and `err` is a register; phase code 00 is IDLE alone, and `err` is the code of
`err_r`. -/
theorem outputsOfRegisters : Obligations.OutputsOfRegisters := by
  intro N u
  have hbusy : u.outputs.busy = true ↔ u.ph.code ≠ 0b00#2 := by
    rw [u.outputs_busy, Ne, Ne, phase_code_eq_zero_iff]
  have herr : ∀ e : ErrCode, u.errR = e → u.outputs.err = e.code := fun e h => by rw [u.outputs_err, h]
  exact ⟨hbusy, rfl, rfl, rfl, rfl, herr .none, herr .divByZero, herr .widthOverflow, herr .reserved⟩

/-- An idle unit that shows neither a result nor an error has nothing to mean. -/
theorem statusOk_of_cleared (count : Nat → Nat → Nat) {u : DivUnit N} (hph : u.ph = .idle) (hdone : u.doneR = false)
    (herr : u.errR = .none) : StatusOk count u where
  err_legal := by simp [herr]
  busy_clear h := absurd hph h
  err_zero h := absurd herr h
  result h := by simp [hdone] at h

/-- The loop invariants say nothing of an idle RD. -/
theorem rdInv_of_idle {u : DivUnit N} (hph : u.ph = .idle) (hs : StatusOk (fun _ _ => N) u) : RdInv u where
  status := hs
  phase_legal := by simp [hph]
  iter h := by simp [hph] at h
  fix h := by simp [hph] at h

/-- The loop invariants say nothing of an idle NRD. -/
theorem nrdInv_of_idle {u : DivUnit N} (hph : u.ph = .idle) (hs : StatusOk (nrdCount N) u) : NrdInv u where
  status := hs
  iter h := by simp [hph] at h
  corr h := by simp [hph] at h
  fix h := by simp [hph] at h

theorem State.resetAt_inv (hN : 2 ≤ N) : (State.resetAt N).Inv where
  width := hN
  rd := rdInv_of_idle rfl (statusOk_of_cleared _ rfl rfl rfl)
  nrd := nrdInv_of_idle rfl (statusOk_of_cleared _ rfl rfl rfl)

/-- Settles O35: a reset unit is idle with its status cleared, which is all the invariant asks of it; the reset width is
legal. -/
theorem resetStateIsGood : Obligations.ResetStateIsGood :=
  ⟨State.resetAt_inv (by decide), fun _ hN => State.resetAt_inv hN⟩

end Sys2Proof.Machine
end

section
/-! PROOFS that the units share nothing (rule R56): what a row of one unit writes, that the rows of two units commute, and
that a unit's run depends only on its own registers, its own inputs and `rst`. -/

namespace Sys2Proof.Machine

variable {N : Nat}

/-! ## Any number of edges -/

/-- Two input lists that show one unit, whose inputs `port` picks out of an edge, the same inputs and the same `rst` at every
edge to come. -/
def SameInputs (port : Edge N → UnitIn N) (ins ins₀ : List (Edge N)) : Prop :=
  ∀ j : Nat, ((ins.drop j).headD (Edge.quiet N)).rst = ((ins₀.drop j).headD (Edge.quiet N)).rst ∧
    port ((ins.drop j).headD (Edge.quiet N)) = port ((ins₀.drop j).headD (Edge.quiet N))

theorem SameInputs.head {port : Edge N → UnitIn N} {ins ins₀ : List (Edge N)} (h : SameInputs port ins ins₀) :
    (ins.headD (Edge.quiet N)).rst = (ins₀.headD (Edge.quiet N)).rst ∧
    port (ins.headD (Edge.quiet N)) = port (ins₀.headD (Edge.quiet N)) := h 0

theorem SameInputs.tail {port : Edge N → UnitIn N} {ins ins₀ : List (Edge N)} (h : SameInputs port ins ins₀) :
    SameInputs port ins.tail ins₀.tail := fun j => by
  rw [List.drop_tail, List.drop_tail]
  exact h (j + 1)

theorem rdRun_congr (k : Nat) : ∀ {ins ins₀ : List (Edge N)} (u : DivUnit N), SameInputs Edge.rd ins ins₀ →
    rdRun k ins u = rdRun k ins₀ u := by
  induction k with
  | zero => intro ins ins₀ u _; rfl
  | succ k ih =>
    intro ins ins₀ u h
    obtain ⟨hrst, hport⟩ := h.head
    rw [rdRun, rdRun, hrst, hport]
    exact ih _ h.tail

theorem nrdRun_congr (k : Nat) : ∀ {ins ins₀ : List (Edge N)} (u : DivUnit N), SameInputs Edge.nrd ins ins₀ →
    nrdRun k ins u = nrdRun k ins₀ u := by
  induction k with
  | zero => intro ins ins₀ u _; rfl
  | succ k ih =>
    intro ins ins₀ u h
    obtain ⟨hrst, hport⟩ := h.head
    rw [nrdRun, nrdRun, hrst, hport]
    exact ih _ h.tail

/-- Settles O44: a run is the two units' runs side by side (`run_eq`), and each of these reads its own port and `rst` only.
Both machines have drawn equally often, so the model makes the whole unit equal, even after a reset; the statement asks for
that only where no reset has come. -/
theorem unitsDoNotInterfere : Obligations.UnitsDoNotInterfere := by
  intro N k rd nrd rd₀ nrd₀ ins ins₀ hN hrd hrd₀
  constructor
  · intro hins
    have heq := rdRun_congr k rd hins
    exact ⟨_, _, _, _, run_eq hN k rd nrd ins hrd, run_eq hN k rd nrd₀ ins₀ hrd,
      congrArg DivUnit.ph heq, congrArg DivUnit.outputs heq, fun _ => heq⟩
  · intro hins
    have heq := nrdRun_congr k nrd hins
    exact ⟨_, _, _, _, run_eq hN k rd nrd ins hrd, run_eq hN k rd₀ nrd ins₀ hrd₀,
      congrArg DivUnit.ph heq, congrArg DivUnit.outputs heq, fun _ => heq⟩

/-! ## One row -/

/-- An RD row is refused in every state, or replaces RD's registers by a function of RD's registers alone. -/
theorem exec_of_unit_rd {i : Instr} (hi : i.unit = .rd) :
    (∃ e, ∀ s, exec i s = .refused e) ∨
    ∃ f : ∀ {N : Nat}, DivUnit N → DivUnit N, ∀ s, exec i s = .next (s.setRd (f s.rd)) := by
  cases i with
  | rdReset ph start => exact .inr ⟨DivUnit.hardReset .rd, fun _ => rfl⟩
  | rdIdle => exact .inr ⟨id, fun _ => rfl⟩
  | rdStart a b => exact .inr ⟨fun {N} => DivUnit.accept (operandWord N a) (operandWord N b), fun _ => rfl⟩
  | rdIter start => exact .inr ⟨DivUnit.restoringIter, fun _ => rfl⟩
  | rdRsv start => exact .inl ⟨.rdReservedPhase, fun _ => rfl⟩
  | rdFix start => exact .inr ⟨DivUnit.writeResult, fun _ => rfl⟩
  | nrdReset | nrdIdle | nrdStart | nrdIter | nrdCorr | nrdFix => cases hi

/-- An NRD row replaces NRD's registers by a function of NRD's registers alone. -/
theorem exec_of_unit_nrd {i : Instr} (hi : i.unit = .nrd) :
    ∃ f : ∀ {N : Nat}, DivUnit N → DivUnit N, ∀ s, exec i s = .next (s.setNrd (f s.nrd)) := by
  cases i with
  | nrdReset ph start => exact ⟨DivUnit.hardReset .nrd, fun _ => rfl⟩
  | nrdIdle => exact ⟨id, fun _ => rfl⟩
  | nrdStart a b => exact ⟨fun {N} => DivUnit.accept (operandWord N a) (operandWord N b), fun _ => rfl⟩
  | nrdIter start => exact ⟨DivUnit.nonRestoringIter, fun _ => rfl⟩
  | nrdCorr start => exact ⟨DivUnit.correct, fun _ => rfl⟩
  | nrdFix start => exact ⟨DivUnit.writeResult, fun _ => rfl⟩
  | rdReset | rdIdle | rdStart | rdIter | rdRsv | rdFix => cases hi

/-- Settles O27: a next state is `setRd` or `setNrd` of the old one, as the row's unit says. -/
theorem rowsWriteOnlyTheirUnit : Obligations.RowsWriteOnlyTheirUnit := by
  intro i s t h
  constructor
  · intro hi
    obtain ⟨e, he⟩ | ⟨f, hf⟩ := exec_of_unit_rd hi
    · rw [he] at h; cases h
    · rw [hf] at h; cases h; exact ⟨_, rfl⟩
  · intro hi
    obtain ⟨f, hf⟩ := exec_of_unit_nrd hi
    rw [hf] at h; cases h; exact ⟨_, rfl⟩

/-- Settles O28: `setRd` and `setNrd` write different fields, and neither row reads what the other writes; a refused RD row is
refused after the NRD row too. -/
theorem rowOrderIsUnobservable : Obligations.RowOrderIsUnobservable := by
  intro i j s hi hj
  obtain ⟨g, hg⟩ := exec_of_unit_nrd hj
  obtain ⟨e, he⟩ | ⟨f, hf⟩ := exec_of_unit_rd hi
  · simp only [andThen, he, hg]
  · simp only [andThen, hf, hg]

end Sys2Proof.Machine
end

section
/-! PROOFS about when the outputs change (rule R54). -/

namespace Sys2Proof.Machine

variable {N : Nat}

/-- What a step answers, where the next edge is written out. -/
theorem step_cons_next {rd nrd rd' nrd' : DivUnit N} {e : Edge N} {rest rest' : List (Edge N)}
    (h : step ⟨N, rd, nrd, e :: rest⟩ = .next ⟨N, rd', nrd', rest'⟩) :
    rd' = rdEdge e.rst e.rd rd ∧ nrd' = nrdEdge e.rst e.nrd nrd := by
  obtain ⟨-, -, ht⟩ := step_next h
  cases ht
  exact ⟨rfl, rfl⟩

/-- `v` shows the same `done`, `err` and result words as `u`. -/
def DivUnit.ResultsKept (u v : DivUnit N) : Prop := v.outputs = { u.outputs with busy := v.outputs.busy }

theorem DivUnit.ResultsKept.refl (u : DivUnit N) : u.ResultsKept u := rfl

/-- The end of an iteration writes `i` and `ph` only. -/
theorem DivUnit.endIteration_resultsKept (exit : Phase) (u : DivUnit N) : u.ResultsKept (u.endIteration exit) := by
  simp [ResultsKept, outputs]

theorem DivUnit.restoringIter_resultsKept (u : DivUnit N) : u.ResultsKept u.restoringIter := by
  rw [restoringIter_eq]
  exact endIteration_resultsKept .fix _

theorem DivUnit.nonRestoringIter_resultsKept (u : DivUnit N) : u.ResultsKept u.nonRestoringIter := by
  rw [nonRestoringIter_eq]
  exact endIteration_resultsKept .corr _

theorem DivUnit.correct_resultsKept (u : DivUnit N) : u.ResultsKept u.correct := by
  unfold correct
  split
  · rfl
  · rfl

/-- A valid accepting edge writes the working registers, `done`, `err` and the phase (rules R101 and R131). -/
theorem DivUnit.accept_valid_outputs {a b : Word N} (h : chk a b = .none) (u : DivUnit N) :
    (u.accept a b).outputs = { u.outputs with busy := true, done := false, err := 0b00#2 } := by
  rw [accept, if_pos h]
  rfl

theorem rdEdge_idle (inp : UnitIn N) {u : DivUnit N} (h : u.ph = .idle) :
    rdEdge false inp u = if inp.start then u.accept inp.dividend inp.divisor else u := by
  simp [rdEdge, h]

theorem nrdEdge_idle (inp : UnitIn N) {u : DivUnit N} (h : u.ph = .idle) :
    nrdEdge false inp u = if inp.start then u.accept inp.dividend inp.divisor else u := by
  simp [nrdEdge, h]

theorem rdEdge_iter (inp : UnitIn N) {u : DivUnit N} (h : u.ph = .iter) : rdEdge false inp u = u.restoringIter := by
  simp [rdEdge, h]

theorem nrdEdge_iter (inp : UnitIn N) {u : DivUnit N} (h : u.ph = .iter) :
    nrdEdge false inp u = u.nonRestoringIter := by
  simp [nrdEdge, h]

theorem nrdEdge_corr (inp : UnitIn N) {u : DivUnit N} (h : u.ph = .corr) : nrdEdge false inp u = u.correct := by
  simp [nrdEdge, h]

theorem rdEdge_resultsKept {inp : UnitIn N} {u : DivUnit N}
    (h : u.ph = .iter ∨ (u.ph = .idle ∧ inp.start = false)) : u.ResultsKept (rdEdge false inp u) := by
  obtain hph | ⟨hph, hs⟩ := h
  · rw [rdEdge_iter inp hph]
    exact u.restoringIter_resultsKept
  · rw [rdEdge_idle inp hph, hs]
    exact .refl u

theorem nrdEdge_resultsKept {inp : UnitIn N} {u : DivUnit N}
    (h : u.ph = .iter ∨ u.ph = .corr ∨ (u.ph = .idle ∧ inp.start = false)) :
    u.ResultsKept (nrdEdge false inp u) := by
  obtain hph | hph | ⟨hph, hs⟩ := h
  · rw [nrdEdge_iter inp hph]
    exact u.nonRestoringIter_resultsKept
  · rw [nrdEdge_corr inp hph]
    exact u.correct_resultsKept
  · rw [nrdEdge_idle inp hph, hs]
    exact .refl u

/-- Settles O33: the rows of ITER, CORR and IDLE write no output register, and START without an error clears `done` and `err`
alone; each unit's part is a fact about its own edge. -/
theorem outputsChangeTogether : Obligations.OutputsChangeTogether := by
  intro N rd nrd rd' nrd' e rest rest' hrst h
  obtain ⟨rfl, rfl⟩ := step_cons_next h
  rw [hrst]
  refine ⟨rdEdge_resultsKept, nrdEdge_resultsKept, fun hph hs hc => ?_, fun hph hs hc => ?_⟩
  · rw [rdEdge_idle e.rd hph, if_pos hs]
    exact rd.accept_valid_outputs hc
  · rw [nrdEdge_idle e.nrd hph, if_pos hs]
    exact nrd.accept_valid_outputs hc

end Sys2Proof.Machine
end

section
/-! PROOFS about the edge encoding, operand literals and operand words (rules R51, R71, R72, R81 and R84). -/

namespace Sys2Proof.Machine

variable {N : Nat}

/-! ## One unit's inputs -/

theorem UnitIn.ofBits_bits (inp : UnitIn N) : UnitIn.ofBits N inp.bits = inp := by
  simp [UnitIn.ofBits, UnitIn.bits, wordOfBits_wordBits]

theorem UnitIn.bits_ofBits {bits : List Bool} (h : bits.length = 2 * N + 1) : (UnitIn.ofBits N bits).bits = bits := by
  cases bits with
  | nil => simp at h
  | cons start words =>
    have hlen : words.length = 2 * N := by simpa using h
    have hdividend : (words.take N).length = N := by simp; omega
    have hdivisor : (words.drop N).length = N := by simp; omega
    simp [UnitIn.ofBits, UnitIn.bits, wordBits_wordOfBits hdividend, wordBits_wordOfBits hdivisor]

/-! ## A whole edge -/

@[simp] theorem Edge.bits_length (e : Edge N) : e.bits.length = 4 * N + 3 := by
  simp [Edge.bits]; omega

theorem Edge.ofBits_bits (e : Edge N) : Edge.ofBits N e.bits = .ok e := by
  rw [Edge.ofBits, if_pos e.bits_length]
  simp [Edge.bits, UnitIn.ofBits_bits]

theorem Edge.exists_bits_eq {bits : List Bool} (h : bits.length = 4 * N + 3) : ∃ e : Edge N, e.bits = bits := by
  cases bits with
  | nil => simp at h
  | cons rst ports =>
    have hlen : ports.length = 4 * N + 2 := by simpa using h
    have hrd : (ports.take (2 * N + 1)).length = 2 * N + 1 := by simp; omega
    have hnrd : (ports.drop (2 * N + 1)).length = 2 * N + 1 := by simp; omega
    exact ⟨⟨rst, UnitIn.ofBits N (ports.take (2 * N + 1)), UnitIn.ofBits N (ports.drop (2 * N + 1))⟩,
      by simp [Edge.bits, UnitIn.bits_ofBits hrd, UnitIn.bits_ofBits hnrd]⟩

/-- Settles O16: the reader cuts a list at the lengths that the encoder gives its parts, and a word and its `N` digits give
each other back (`wordOfBits_wordBits`, `wordBits_wordOfBits`). -/
theorem edgeEncodingRoundTrip : Obligations.EdgeEncodingRoundTrip := by
  intro N
  refine ⟨fun e => ⟨e.bits_length, e.ofBits_bits⟩, fun bits h => ?_⟩
  obtain ⟨e, rfl⟩ := Edge.exists_bits_eq h
  exact ⟨e, e.ofBits_bits, rfl⟩

/-! ## Operand literals -/

/-- Settles O17: a `0b` literal is read by the inverse of `wordBits`, and a decimal one in range is the value of its word. -/
theorem operandLiterals : Obligations.OperandLiterals := by
  intro N hN
  refine ⟨fun w => ?_, fun digits h => ?_, fun v hlo hhi => ?_, fun v h => ?_⟩
  · rw [Opnd.word, if_pos (wordBits_length w), wordOfBits_wordBits]
  · exact if_neg h
  · exact ⟨BitVec.ofInt N v, if_pos ⟨hlo, hhi⟩, BitVec.toInt_ofInt_eq_self (by omega) hlo (by omega)⟩
  · exact if_neg (by omega)

/-! ## Operand words -/

theorem minw_toInt (h : 1 ≤ N) : (minw N).toInt = -2 ^ (N - 1) := by
  rw [BitVec.toInt_eq_toNat_cond, minw_toNat h, two_pow_pred h, if_neg (by omega)]
  push_cast
  ring

/-- Settles O19: `ne_minw_iff` says that the words other than `MINW` are the valid ones. -/
theorem oneInvalidWord : Obligations.OneInvalidWord := by
  intro N hN
  have h1 : 1 ≤ N := by omega
  exact ⟨minw_toNat h1, minw_toInt h1, fun w => by rw [← ne_minw_iff h1 w, not_not]⟩

/-- Rule R73: the sign bit in numbers. -/
theorem signBit_iff_toNat (h : 1 ≤ N) (w : Word N) : signBit w = true ↔ 2 ^ (N - 1) ≤ w.toNat := by
  obtain ⟨n, rfl⟩ : ∃ n, N = n + 1 := ⟨N - 1, by omega⟩
  exact signFlag_iff_toNat (N := n) w

theorem neg_eq_ofInt_neg_toInt (w : Word N) : -w = BitVec.ofInt N (-w.toInt) := by
  rw [BitVec.ofInt_neg, BitVec.ofInt_toInt]

/-- Settles O20: the magnitude splits on the sign bit; `mag_toNat` gives it as the absolute value, which a valid word keeps
below `2^(N-1)`. -/
theorem magnitudeOfWord : Obligations.MagnitudeOfWord := by
  intro N w hN
  have h1 : 1 ≤ N := by omega
  have hsign := signBit_iff_toNat h1 w
  refine ⟨fun hlt => ?_, fun hge => ?_, fun hw => ?_⟩
  · rw [mag, if_neg (by rw [hsign]; omega)]
  · rw [mag, if_pos (hsign.2 hge), neg_eq_ofInt_neg_toInt]
  · have hlt : (mag w).toNat < 2 ^ (N - 1) := by
      rw [mag_toNat h1]
      exact natAbs_lt_of_isOperand hw
    have hpos : signBit (mag w) = false := by
      rw [← Bool.not_eq_true, signBit_iff_toNat h1]
      omega
    exact ⟨by rw [mag_toNat h1, Int.natCast_natAbs], hlt, hpos⟩

end Sys2Proof.Machine
end

section
/-! PROOFS about the control table, the decoder and the encoder (rules R76 and R77). The decoder loses nothing of a control
vector (`encode_decode_cases`), an instruction's control vector matches the line of its row (`rowPattern`), and no other line
of its unit matches (`controlTable_apart`); what the table's first match is follows from these. -/

namespace Sys2Proof

/-- Settles O12: each word is written out, and decoding it is a computation. -/
theorem tableWordsDecode : Obligations.TableWordsDecode := by
  unfold Obligations.TableWordsDecode
  decide

/-! ## Encoding and decoding -/

theorem decode_encode (i : Instr) : decode (encode i) = i := by
  cases i with
  | rdReset | rdIdle | rdStart | rdIter | rdRsv | rdFix => rw [encode, decode_rd]; rfl
  | nrdReset | nrdIdle | nrdStart | nrdIter | nrdCorr | nrdFix => rw [encode, decode_nrd]; rfl

/-- Every row word is one that a unit builds from its `rst`, phase and `start`. -/
theorem RowWord.exists_eq (w : RowWord) :
    ∃ rst ph start, w = ⟨w.unit, controlVector rst ph start, w.dividend, w.divisor⟩ := by
  obtain ⟨rst, ph, start, h⟩ := exists_controlVector w.cv
  exact ⟨rst, ph, start, by rw [← h]⟩

/-- A row word is read back whole, or the row is no START row and its data words, which it does not read, come back as 0. -/
theorem encode_decode_cases (w : RowWord) :
    encode (decode w) = w ∨
    ((decode w).row ≠ .rdStart ∧ (decode w).row ≠ .nrdStart ∧ encode (decode w) = ⟨w.unit, w.cv, 0, 0⟩) := by
  obtain ⟨rst, ph, start, hw⟩ := w.exists_eq
  rw [hw]
  cases w.unit with
  | rd =>
    rw [decode_rd]
    match rst, ph, start with
    | false, .idle, true => exact .inl rfl
    | true, _, _ | false, .idle, false | false, .iter, _ | false, .corr, _ | false, .fix, _ =>
      exact .inr ⟨nofun, nofun, rfl⟩
  | nrd =>
    rw [decode_nrd]
    match rst, ph, start with
    | false, .idle, true => exact .inl rfl
    | true, _, _ | false, .idle, false | false, .iter, _ | false, .corr, _ | false, .fix, _ =>
      exact .inr ⟨nofun, nofun, rfl⟩

theorem encode_decode_unit (w : RowWord) : (encode (decode w)).unit = w.unit := by
  obtain h | ⟨-, -, h⟩ := encode_decode_cases w <;> rw [h]

theorem encode_decode_cv (w : RowWord) : (encode (decode w)).cv = w.cv := by
  obtain h | ⟨-, -, h⟩ := encode_decode_cases w <;> rw [h]

theorem encode_decode_of_start {w : RowWord} (h : (decode w).row = .rdStart ∨ (decode w).row = .nrdStart) :
    encode (decode w) = w := by
  obtain heq | ⟨hrd, hnrd, -⟩ := encode_decode_cases w
  · exact heq
  · exact absurd h (not_or.2 ⟨hrd, hnrd⟩)

/-- Settles O15: a control vector gives its fields back (`decode_rd`, `decode_nrd`), and START alone carries data words. -/
theorem decodeEncodeAgree : Obligations.DecodeEncodeAgree :=
  ⟨decode_encode, fun w => ⟨encode_decode_unit w, encode_decode_cv w, encode_decode_of_start⟩⟩

/-! ## Which lines of the table match -/

theorem Row.hits_iff (r : Row) (u : UnitId) (cv : BitVec 4) :
    r.hits u cv = true ↔ r.unit = u ∧ cv &&& r.mask = r.patt := by
  simp [Row.hits]

/-- Rule R77: an instruction's control vector matches the line of its row. -/
theorem rowPattern : ∀ i : Instr, Laws.RowPattern.Statement i
  | .rdReset ph start => Laws.RowPattern.rdReset ph start
  | .rdIdle => Laws.RowPattern.rdIdle
  | .rdStart a b => Laws.RowPattern.rdStart a b
  | .rdIter start => Laws.RowPattern.rdIter start
  | .rdRsv start => Laws.RowPattern.rdRsv start
  | .rdFix start => Laws.RowPattern.rdFix start
  | .nrdReset ph start => Laws.RowPattern.nrdReset ph start
  | .nrdIdle => Laws.RowPattern.nrdIdle
  | .nrdStart a b => Laws.RowPattern.nrdStart a b
  | .nrdIter start => Laws.RowPattern.nrdIter start
  | .nrdCorr start => Laws.RowPattern.nrdCorr start
  | .nrdFix start => Laws.RowPattern.nrdFix start

/-- The line named after the decoded row matches. -/
theorem exists_hits_decode (w : RowWord) : ∃ r ∈ controlTable, r.name = (decode w).row ∧ r.hits w.unit w.cv = true := by
  obtain ⟨r, hr, hname, hunit, hcv⟩ := rowPattern (decode w)
  rw [encode_decode_unit] at hunit
  rw [encode_decode_cv] at hcv
  exact ⟨r, hr, hname, (r.hits_iff _ _).2 ⟨hunit, hcv⟩⟩

/-- Some bit that both lines look at is 1 in one pattern and 0 in the other (a pattern has no bit outside its mask). -/
def Row.Apart (r r' : Row) : Prop := r.patt &&& r'.mask ≠ r'.patt &&& r.mask

theorem controlTable_apart : ∀ r ∈ controlTable, ∀ r' ∈ controlTable, r.unit = r'.unit → r = r' ∨ r.Apart r' := by
  unfold Row.Apart
  decide

theorem hits_unique {u : UnitId} {cv : BitVec 4} {r r' : Row} (hr : r ∈ controlTable) (hr' : r' ∈ controlTable)
    (h : r.hits u cv = true) (h' : r'.hits u cv = true) : r = r' := by
  obtain ⟨hu, hm⟩ := (r.hits_iff u cv).1 h
  obtain ⟨hu', hm'⟩ := (r'.hits_iff u cv).1 h'
  obtain heq | hapart := controlTable_apart r hr r' hr' (hu.trans hu'.symm)
  · exact heq
  · refine absurd ?_ hapart
    calc r.patt &&& r'.mask = cv &&& r.mask &&& r'.mask := by rw [hm]
      _ = cv &&& r'.mask &&& r.mask := by rw [BitVec.and_assoc, BitVec.and_comm r.mask, ← BitVec.and_assoc]
      _ = r'.patt &&& r.mask := by rw [hm']

/-- Settles O14: the line of the decoded row matches, and two lines of a unit that match agree wherever both look, which
different ones do not. -/
theorem rowsCoverWithoutOverlap : Obligations.RowsCoverWithoutOverlap := by
  intro u cv
  obtain ⟨r, hr, -, h⟩ := exists_hits_decode ⟨u, cv, 0, 0⟩
  exact ⟨⟨r, hr, h⟩, fun r hr r' hr' => hits_unique hr hr'⟩

theorem controlVector_toNat (rst : Bool) (ph : Phase) (start : Bool) :
    (controlVector rst ph start).toNat = 8 * rst.toNat + 2 * ph.code.toNat + start.toNat := by
  revert rst start
  cases ph <;> decide

theorem firstRow_eq_decode (w : RowWord) : firstRow w.unit w.cv = some (decode w).row := by
  obtain ⟨r, hr, hname, hhits⟩ := exists_hits_decode w
  obtain ⟨r', hfind⟩ : ∃ r', controlTable.find? (fun r => r.hits w.unit w.cv) = some r' :=
    Option.isSome_iff_exists.1 (List.find?_isSome.2 ⟨r, hr, hhits⟩)
  have hhits' : r'.hits w.unit w.cv = true := by simpa using List.find?_some hfind
  have heq : r' = r := hits_unique (List.mem_of_find?_eq_some hfind) hr hhits' hhits
  rw [firstRow, hfind, heq, Option.map_some, hname]

/-- Settles O13: the line of the decoded row matches, and as no other line does, it is the first that does. -/
theorem decodedRowIsFirstMatch : Obligations.DecodedRowIsFirstMatch :=
  ⟨controlVector_toNat, firstRow_eq_decode⟩

end Sys2Proof

namespace Sys2Proof.Machine

/-- Settles O26: both rows are chosen before the edge, and `step` is `exec` of RD's and then of NRD's. -/
theorem stepRunsDecodedRows : Obligations.StepRunsDecodedRows := by
  intro s i j hN hi hj
  have hrd : s.rdInstr = i := hi
  have hnrd : s.nrdInstr = j := hj
  have hwidth : ¬s.N < 2 := by omega
  refine ⟨fun t r ht hr => ?_, fun e he => ?_⟩
  · simp only [step, if_neg hwidth, hrd, hnrd, ht, andThen, hr]
  · simp only [step, if_neg hwidth, hrd, he, andThen]

end Sys2Proof.Machine
end

section
/-! PROOFS about stimulus statements and programs (rules R82, R83 and R84), but for `WAIT` on a busy
unit. -/

namespace Sys2Proof.Machine

/-! ## The edges of the statements -/

theorem startOf_eq_ok {N : Nat} {a b : Opnd} {x y : Word N} (ha : a.word N = .ok x) (hb : b.word N = .ok y) :
    startOf N a b = .ok ⟨true, x, y⟩ := by
  rw [startOf, ha, hb]
  rfl

/-- Rule R82, the rows of the table with operands. -/
theorem division_edges {N : Nat} {a b : Opnd} {x y : Word N} (ha : a.word N = .ok x) (hb : b.word N = .ok y) :
    (Stmt.rdiv a b).edges N = .ok [⟨false, ⟨true, x, y⟩, UnitIn.quiet N⟩] ∧
    (Stmt.nrdiv a b).edges N = .ok [⟨false, UnitIn.quiet N, ⟨true, x, y⟩⟩] ∧
    (Stmt.div a b).edges N = .ok [⟨false, ⟨true, x, y⟩, ⟨true, x, y⟩⟩] := by
  have hstart := startOf_eq_ok ha hb
  refine ⟨?_, ?_, ?_⟩
  · rw [Stmt.edges, hstart]; rfl
  · rw [Stmt.edges, hstart]; rfl
  · rw [Stmt.edges, hstart]; rfl

/-! ## Running a statement -/

/-- The statements that emit the same edges whatever the state is. -/
def Stmt.emits : Stmt → Bool
  | .reset | .rdiv _ _ | .nrdiv _ _ | .div _ _ | .tick _ => true
  | .wait _ | .expect _ _ _ _ _ | .rdivw _ _ | .nrdivw _ _ | .divw _ _ => false

theorem runPlain_of_emits {st : Stmt} (h : st.emits = true) (r : Run) :
    runPlain st r = (st.edges r.state.N).bind r.drive := by
  cases st with
  | reset | rdiv | nrdiv | div | tick => rfl
  | wait | expect | rdivw | nrdivw | divw => cases h

/-- The three ways in which running such a statement ends. -/
theorem runPlain_emits_cases {st : Stmt} (h : st.emits = true) (r : Run) :
    (∀ (es : List (Edge r.state.N)) (t : State), st.edges r.state.N = .ok es →
      run es.length { r.state with inputs := es ++ r.state.inputs } = .next t →
      runPlain st r = .ok ⟨t, r.emitted ++ es.map Edge.bits⟩) ∧
    (∀ (es : List (Edge r.state.N)) (e : Refusal), st.edges r.state.N = .ok es →
      run es.length { r.state with inputs := es ++ r.state.inputs } = .refused e → runPlain st r = .error (.stopped e)) ∧
    (∀ e : StimulusError, st.edges r.state.N = .error e → runPlain st r = .error e) := by
  rw [runPlain_of_emits h]
  refine ⟨fun es t hes hrun => ?_, fun es e hes hrun => ?_, fun e hes => ?_⟩
  · rw [hes, Except.bind, drive_eq, hrun]
  · rw [hes, Except.bind, drive_eq, hrun]
  · rw [hes, Except.bind]

theorem runWait_of_done {id : UnitId} {r : Run} (h : (r.state.outputs id).done = true) (fuel : Nat) :
    runWait id fuel r = .ok r := by
  cases fuel with
  | zero => rw [runWait, if_pos h]
  | succ fuel => rw [runWait, if_pos h]

theorem runPlain_wait (id : UnitId) (r : Run) : runPlain (.wait id) r = runWait id (r.state.N + 2) r := by
  rw [runPlain]

/-- `EXPECT` only looks: it answers the run it was given, or fails. -/
theorem runPlain_expect {id : UnitId} {r : Run} {a b : Opnd} {x y : Word r.state.N} (ha : a.word r.state.N = .ok x)
    (hb : b.word r.state.N = .ok y) (count : Nat) (e : ErrCode) :
    runPlain (.expect id a b count e) r =
      if expectHolds r.state id x y count e = true then .ok r else .error .expectFailed := by
  rw [runPlain, ha, hb]
  rfl

/-- Settles O18, clause by clause: what a statement emits (`division_edges`), how running an emitting one ends
(`runPlain_emits_cases`), the expansions, and that `WAIT` on a finished unit and `EXPECT` emit no edge. -/
theorem statementsEmitTheirEdges : Obligations.StatementsEmitTheirEdges := by
  refine ⟨fun N a b x y => division_edges, fun N k => ⟨rfl, rfl⟩, fun a b k st hst r => ?_, fun a b => ⟨rfl, rfl, rfl⟩,
    fun id r h => ?_, fun id r a b x y count e ha hb => ?_⟩
  · have hemits : st.emits = true := by
      simp only [List.mem_cons, List.not_mem_nil, or_false] at hst
      obtain rfl | rfl | rfl | rfl | rfl := hst <;> rfl
    exact runPlain_emits_cases hemits r
  · rw [runPlain_wait, runWait_of_done h]
  · rw [runPlain_expect ha hb, ← expectHolds_iff]
    split
    · next h => exact ⟨iff_of_true rfl h, fun r' h' => (Except.ok.inj h').symm⟩
    · next h => exact ⟨iff_of_false (by simp) h, by simp⟩

/-! ## Programs -/

/-- The statements of an expansion are their own expansions (rule R83). -/
theorem Stmt.expand_of_mem_expand (st : Stmt) : ∀ st' ∈ st.expand, st'.expand = [st'] := by
  cases st <;> simp [expand]

theorem flatMap_expand_expand (program : List Stmt) :
    (program.flatMap Stmt.expand).flatMap Stmt.expand = program.flatMap Stmt.expand := by
  have hsingle : ∀ st' ∈ program.flatMap Stmt.expand, st'.expand = [st'] := fun st' h => by
    obtain ⟨st, -, hst⟩ := List.mem_flatMap.1 h
    exact st.expand_of_mem_expand st' hst
  rw [List.flatMap_congr hsingle, List.flatMap_singleton']

theorem runProgram_concat {st : Stmt} (h : st.expand = [st]) (program : List Stmt) (s : State) :
    runProgram (program ++ [st]) s = (runProgram program s).bind (runPlain st) := by
  rw [runProgram, List.flatMap_append, List.flatMap_singleton, h, List.foldlM_append]
  simp only [List.foldlM_cons, List.foldlM_nil, bind_pure]
  rfl

/-- Settles O48: a program is the fold of `runPlain` over its expansion, which expands to itself. -/
theorem programsRunTheirStatements : Obligations.ProgramsRunTheirStatements := by
  intro program s
  refine ⟨rfl, ?_, fun st hst => ⟨fun r hr => ?_, fun e he => ?_⟩⟩
  · rw [runProgram, runProgram, flatMap_expand_expand]
  · rw [runProgram_concat hst, hr, Except.bind]
  · rw [runProgram_concat hst, he, Except.bind]

end Sys2Proof.Machine
end

section
/-! PROOF that `WAIT` on a busy unit ends (rules R82 and R243): each edge without reset takes one from the number of edges
that the unit has left. -/

namespace Sys2Proof.Machine

variable {N : Nat}

/-! ## The edges that a busy unit has left -/

/-- The phase that a unit's last iteration leads to (rules R102 and R132). -/
def afterLoop : UnitId → Phase
  | .rd => .fix
  | .nrd => .corr

/-- The edges that a unit has left after its last iteration (rule R239): FIX, and CORR before it in NRD. -/
def tailEdges : UnitId → Nat
  | .rd => 1
  | .nrd => 2

/-- Unit `id` has `m` edges left, if none of them is a reset edge: it works without a result to show, or, if `m` is 0, it
shows one without an error. -/
structure DivUnit.EdgesLeft (id : UnitId) (m : Nat) (u : DivUnit N) : Prop where
  err : u.errR = .none
  done : u.doneR = decide (m = 0)
  phase :
    (u.ph = .idle ∧ m = 0) ∨ (u.ph = .fix ∧ m = 1) ∨ (u.ph = .corr ∧ id = .nrd ∧ m = 2) ∨
    (u.ph = .iter ∧ u.i.toNat < N ∧ m = N - u.i.toNat + tailEdges id)

theorem rdEdge_fix (inp : UnitIn N) {u : DivUnit N} (h : u.ph = .fix) : rdEdge false inp u = u.writeResult := by
  simp [rdEdge, h]

theorem nrdEdge_fix (inp : UnitIn N) {u : DivUnit N} (h : u.ph = .fix) : nrdEdge false inp u = u.writeResult := by
  simp [nrdEdge, h]

theorem DivUnit.EdgesLeft.writeResult {id : UnitId} {m : Nat} {u : DivUnit N} (h : u.EdgesLeft id m) :
    u.writeResult.EdgesLeft id 0 :=
  ⟨h.err, rfl, .inl ⟨rfl, rfl⟩⟩

/-- The correction moves to FIX, and writes neither `done` nor `err`. -/
theorem DivUnit.EdgesLeft.correct {u : DivUnit N} (h : u.EdgesLeft .nrd 2) : u.correct.EdgesLeft .nrd 1 := by
  unfold DivUnit.correct
  split
  · exact ⟨h.err, h.done, .inr (.inl ⟨rfl, rfl⟩)⟩
  · exact ⟨h.err, h.done, .inr (.inl ⟨rfl, rfl⟩)⟩

/-- The last iteration leaves the edges after the loop; any other counts up `i`. -/
theorem DivUnit.EdgesLeft.endIteration (hN : 2 ≤ N) {id : UnitId} {m : Nat} {u : DivUnit N} (h : u.EdgesLeft id (m + 1))
    (hph : u.ph = .iter) (hi : u.i.toNat < N) (hm : m + 1 = N - u.i.toNat + tailEdges id) :
    (u.endIteration (afterLoop id)).EdgesLeft id m := by
  have hm0 : m ≠ 0 := by cases id <;> simp only [tailEdges] at hm <;> omega
  refine ⟨by simpa using h.err, by simpa [hm0] using h.done, ?_⟩
  by_cases hlast : u.i.toNat = N - 1
  · obtain ⟨-, hexit⟩ := u.endIteration_last (afterLoop id) hlast
    cases id with
    | rd => exact .inr (.inl ⟨hexit, by simp only [tailEdges] at hm; omega⟩)
    | nrd => exact .inr (.inr (.inl ⟨hexit, rfl, by simp only [tailEdges] at hm; omega⟩))
  · obtain ⟨-, hstay⟩ := u.endIteration_more (afterLoop id) hlast
    have hnext := endIteration_i hN (afterLoop id) (u := u) (by omega)
    exact .inr (.inr (.inr ⟨hstay.trans hph, by omega, by omega⟩))

theorem DivUnit.EdgesLeft.rdEdge (hN : 2 ≤ N) {m : Nat} {u : DivUnit N} (h : u.EdgesLeft .rd (m + 1)) (inp : UnitIn N) :
    (rdEdge false inp u).EdgesLeft .rd m := by
  obtain ⟨-, hm⟩ | ⟨hph, hm⟩ | ⟨-, hid, -⟩ | ⟨hph, hi, hm⟩ := h.phase
  · cases hm
  · cases hm
    rw [rdEdge_fix inp hph]
    exact h.writeResult
  · cases hid
  · rw [rdEdge_iter inp hph, restoringIter_eq]
    exact endIteration hN ⟨h.err, h.done, h.phase⟩ hph hi hm

theorem DivUnit.EdgesLeft.nrdEdge (hN : 2 ≤ N) {m : Nat} {u : DivUnit N} (h : u.EdgesLeft .nrd (m + 1)) (inp : UnitIn N) :
    (nrdEdge false inp u).EdgesLeft .nrd m := by
  obtain ⟨-, hm⟩ | ⟨hph, hm⟩ | ⟨hph, -, hm⟩ | ⟨hph, hi, hm⟩ := h.phase
  · cases hm
  · cases hm
    rw [nrdEdge_fix inp hph]
    exact h.writeResult
  · cases hm
    rw [nrdEdge_corr inp hph]
    exact h.correct
  · rw [nrdEdge_iter inp hph, nonRestoringIter_eq]
    exact endIteration hN ⟨h.err, h.done, h.phase⟩ hph hi hm

/-- Rules R239 and R243 for RD: FIX has one edge left, and iteration `i` has `N - i` iterations before it. -/
theorem RdInv.exists_edgesLeft {u : DivUnit N} (h : RdInv u) (hbusy : u.ph ≠ .idle) :
    ∃ m, 1 ≤ m ∧ m ≤ N + 1 ∧ u.EdgesLeft .rd m := by
  obtain ⟨hdone, herr⟩ := h.status.busy_clear hbusy
  cases hph : u.ph with
  | idle => exact absurd hph hbusy
  | iter =>
    obtain ⟨hi, -⟩ := h.iter hph
    exact ⟨N - u.i.toNat + 1, by omega, by omega, herr, by simpa using hdone, .inr (.inr (.inr ⟨hph, hi, rfl⟩))⟩
  | corr => exact absurd hph h.phase_legal
  | fix => exact ⟨1, by omega, by omega, herr, by simpa using hdone, .inr (.inl ⟨hph, rfl⟩)⟩

/-- Rules R239 and R243 for NRD: as for RD, with CORR before FIX. -/
theorem NrdInv.exists_edgesLeft {u : DivUnit N} (h : NrdInv u) (hbusy : u.ph ≠ .idle) :
    ∃ m, 1 ≤ m ∧ m ≤ N + 2 ∧ u.EdgesLeft .nrd m := by
  obtain ⟨hdone, herr⟩ := h.status.busy_clear hbusy
  cases hph : u.ph with
  | idle => exact absurd hph hbusy
  | iter =>
    obtain ⟨hi, -⟩ := h.iter hph
    exact ⟨N - u.i.toNat + 2, by omega, by omega, herr, by simpa using hdone, .inr (.inr (.inr ⟨hph, hi, rfl⟩))⟩
  | corr => exact ⟨2, by omega, by omega, herr, by simpa using hdone, .inr (.inr (.inl ⟨hph, rfl, rfl⟩))⟩
  | fix => exact ⟨1, by omega, by omega, herr, by simpa using hdone, .inr (.inl ⟨hph, rfl⟩)⟩

/-! ## Edges of 0 -/

/-- The state after an edge of 0 that is driven before the promised ones. -/
def State.afterQuiet (s : State) : State where
  N := s.N
  rd := rdEdge false (UnitIn.quiet s.N) s.rd
  nrd := nrdEdge false (UnitIn.quiet s.N) s.nrd
  inputs := s.inputs

theorem drive_quiet {r : Run} (hN : 2 ≤ r.state.N) (h : r.state.rd.ph ≠ .corr) :
    r.drive [Edge.quiet r.state.N] = .ok ⟨r.state.afterQuiet, r.emitted ++ [(Edge.quiet r.state.N).bits]⟩ := by
  have hrun : run 1 { r.state with inputs := [Edge.quiet r.state.N] ++ r.state.inputs } = .next r.state.afterQuiet :=
    run_eq hN 1 r.state.rd r.state.nrd (Edge.quiet r.state.N :: r.state.inputs) h
  rw [drive_eq, List.length_singleton, hrun, List.map_singleton]

/-- The unit named `id` has `m` edges left. -/
def State.EdgesLeft (id : UnitId) (m : Nat) (s : State) : Prop :=
  match id with
  | .rd => s.rd.EdgesLeft .rd m
  | .nrd => s.nrd.EdgesLeft .nrd m

theorem State.EdgesLeft.done {id : UnitId} {m : Nat} {s : State} (h : s.EdgesLeft id m) :
    (s.outputs id).done = decide (m = 0) := by
  cases id with
  | rd => exact DivUnit.EdgesLeft.done h
  | nrd => exact DivUnit.EdgesLeft.done h

theorem State.EdgesLeft.err {id : UnitId} {m : Nat} {s : State} (h : s.EdgesLeft id m) : (s.outputs id).err = 0b00#2 := by
  cases id with
  | rd => exact congrArg ErrCode.code (DivUnit.EdgesLeft.err h)
  | nrd => exact congrArg ErrCode.code (DivUnit.EdgesLeft.err h)

theorem State.EdgesLeft.afterQuiet {id : UnitId} {m : Nat} {s : State} (hN : 2 ≤ s.N) (h : s.EdgesLeft id (m + 1)) :
    s.afterQuiet.EdgesLeft id m := by
  cases id with
  | rd => exact DivUnit.EdgesLeft.rdEdge hN h _
  | nrd => exact DivUnit.EdgesLeft.nrdEdge hN h _

theorem State.Inv.exists_edgesLeft {s : State} (h : s.Inv) {id : UnitId} (hbusy : (s.outputs id).busy = true) :
    ∃ m, 1 ≤ m ∧ m ≤ s.N + 2 ∧ s.EdgesLeft id m := by
  cases id with
  | rd =>
    obtain ⟨m, hpos, hle, hleft⟩ := h.rd.exists_edgesLeft ((DivUnit.outputs_busy _).1 hbusy)
    exact ⟨m, hpos, by omega, hleft⟩
  | nrd => exact h.nrd.exists_edgesLeft ((DivUnit.outputs_busy _).1 hbusy)

/-- `WAIT` drives as many edges as the unit has left, if the bound lets it. -/
theorem runWait_of_edgesLeft {id : UnitId} (m : Nat) : ∀ {fuel : Nat} {r : Run}, m ≤ fuel → 2 ≤ r.state.N →
    r.state.rd.ph ≠ .corr → r.state.EdgesLeft id m →
    ∃ r' : Run, runWait id fuel r = .ok r' ∧
      r'.emitted = r.emitted ++ List.replicate m (Edge.quiet r.state.N).bits ∧
      r'.state.N = r.state.N ∧ r'.state.EdgesLeft id 0 := by
  induction m with
  | zero =>
    intro fuel r _ _ _ h
    exact ⟨r, runWait_of_done h.done fuel, by simp, rfl, h⟩
  | succ m ih =>
    intro fuel r hfuel hN hlegal h
    obtain ⟨fuel, rfl⟩ : ∃ f, fuel = f + 1 := ⟨fuel - 1, by omega⟩
    obtain ⟨r', hrun, hemitted, hwidth, hleft⟩ :=
      ih (fuel := fuel) (r := ⟨r.state.afterQuiet, r.emitted ++ [(Edge.quiet r.state.N).bits]⟩) (by omega) hN
        (rdEdge_ph_ne_corr _ _ hlegal) (h.afterQuiet hN)
    refine ⟨r', ?_, ?_, hwidth, hleft⟩
    · rw [runWait, h.done, if_neg (by simp), drive_quiet hN hlegal]
      exact hrun
    · rw [hemitted, List.append_assoc, List.replicate_succ]
      rfl

/-- Settles O47: a busy unit in a good state has between 1 and `N + 2` edges left. -/
theorem waitOnBusyUnitEnds : Obligations.WaitOnBusyUnitEnds := by
  intro id r hinv hbusy
  obtain ⟨m, hpos, hle, hleft⟩ := hinv.exists_edgesLeft hbusy
  obtain ⟨r', hrun, hemitted, hwidth, hend⟩ := runWait_of_edgesLeft m hle hinv.width hinv.rd.phase_legal hleft
  exact ⟨r', m, by rw [runPlain_wait, hrun], hpos, hle, hemitted, hwidth, hend.done, hend.err⟩

end Sys2Proof.Machine
end

section
/-! PROOFS about the rows of RD, one at a time (rules R100 to R104 and R108). -/

namespace Sys2Proof.Machine

variable {N : Nat}

/-! ## What `exec` of a row is -/

theorem exec_rdStart (s : State) (a b : Word s.N) :
    exec (.rdStart a.toNat b.toNat) s = .next (s.setRd (s.rd.accept a b)) := by
  simp [exec, execRdStart]

theorem exec_rdIter (start : Bool) (s : State) : exec (.rdIter start) s = .next (s.setRd s.rd.restoringIter) := rfl

theorem exec_rdFix (start : Bool) (s : State) : exec (.rdFix start) s = .next (s.setRd s.rd.writeResult) := rfl

theorem exec_rdRsv (start : Bool) (s : State) : exec (.rdRsv start) s = .refused .rdReservedPhase := rfl

/-- Settles O2: neither row calls an operation on a unit. -/
theorem idleRowsChangeNothing : Obligations.IdleRowsChangeNothing := fun _ => ⟨rfl, rfl⟩

/-! ## START -/

/-- Rule R201: the check finds nothing exactly for valid operands and a divisor other than 0. -/
theorem chk_eq_none_iff (h : 1 ≤ N) (a b : Word N) :
    chk a b = .none ↔ IsOperand N a.toInt ∧ IsOperand N b.toInt ∧ b.toInt ≠ 0 := by
  rw [← ne_minw_iff h, ← ne_minw_iff h, Ne, Ne, Ne, toInt_eq_zero_iff]
  obtain ⟨hb, hc⟩ | ⟨-, hw, hc⟩ | ⟨hb, ha, hb', hc⟩ := chk_cases a b
  · rw [hc]
    exact iff_of_false (by decide) (by tauto)
  · rw [hc]
    exact iff_of_false (by decide) (by tauto)
  · exact iff_of_true hc ⟨ha, hb', hb⟩

theorem DivUnit.accept_of_valid {a b : Word N} (h : chk a b = .none) (u : DivUnit N) :
    u.accept a b = u.initialise a b := if_pos h

/-- Rule R7: a word is known by its number. -/
theorem eq_ofNat_of_toNat_eq {w n : Nat} {v : BitVec w} (h : v.toNat = n) : v = BitVec.ofNat w n := by
  rw [← h, BitVec.ofNat_toNat, BitVec.setWidth_eq]

theorem mag_eq_ofNat (h : 1 ≤ N) (w : Word N) : mag w = BitVec.ofNat N w.toInt.natAbs :=
  eq_ofNat_of_toNat_eq (mag_toNat h w)

/-- Rules R101 and R131: what an accepting edge without an error writes, by the values of the operands. -/
theorem DivUnit.initialise_eq (h : 1 ≤ N) (a b : Word N) (u : DivUnit N) :
    u.initialise a b =
      { u with
        A := BitVec.ofNat (N + 1) 0
        Q := BitVec.ofNat N a.toInt.natAbs
        M := BitVec.ofNat N b.toInt.natAbs
        sq := xor (decide (a.toInt < 0)) (decide (b.toInt < 0))
        sr := decide (a.toInt < 0)
        i := BitVec.ofNat (IW N) 0
        cnt := BitVec.ofNat (CW N) 0
        doneR := false
        errR := .none
        ph := .iter } := by
  rw [initialise, mag_eq_ofNat h, mag_eq_ofNat h, signBit_eq_decide h, signBit_eq_decide h]
  rfl

/-- Settles O3: the check finds nothing (`chk_eq_none_iff`), so the row initialises. -/
theorem rdStartInitialises : Obligations.RdStartInitialises := by
  intro s a b hN ha hb hb0
  have h1 : 1 ≤ s.N := by omega
  have hc : chk a b = .none := (chk_eq_none_iff h1 a b).2 ⟨ha, hb, hb0⟩
  rw [exec_rdStart, DivUnit.accept_of_valid hc, DivUnit.initialise_eq h1]

/-! ## ITER -/

/-- Rule R102: the accumulator after the iteration, `D` being the trial difference. -/
theorem restoringIter_A (u : DivUnit N) :
    u.restoringIter.A =
      if signFlag (shiftAcc u.A u.Q - zextAcc u.M) then shiftAcc u.A u.Q else shiftAcc u.A u.Q - zextAcc u.M := by
  simp [restoringIter_eq]

/-- Settles O23: a negative trial difference keeps `As`, and a subtraction modulo `2^(N+1)` is undone by the addition. -/
theorem restoreIsAddingBack : Obligations.RestoreIsAddingBack := by
  intro s t start hN h hneg
  cases h
  rw [BitVec.sub_add_cancel, State.setRd_rd, restoringIter_A, if_pos ((signFlag_iff_toNat _).2 hneg)]

/-- Rule R102: the trial difference as a number. -/
theorem accSub_toNat (As : Acc N) (M : Word N) :
    (As - zextAcc M).toNat = (((As.toNat : Int) - M.toNat) % 2 ^ (N + 1)).toNat := by
  have hM : (zextAcc M).toNat ≤ 2 ^ (N + 1) := (zextAcc M).isLt.le
  rw [← zextAcc_toNat M, BitVec.toNat_sub]
  zify [hM]
  rw [Int.toNat_of_nonneg (Int.emod_nonneg _ (by positivity)), sub_add_eq_add_sub, add_sub_assoc, Int.add_emod_left]

/-- Setting bit 0 of `Qs` or not, as a number (rule R22). -/
theorem recordBit_toNat (h : 1 ≤ N) (Q : Word N) (b : Bool) :
    (recordBit (shiftQuo Q) b).toNat = if b then 2 * Q.toNat % 2 ^ N ||| 1 else 2 * Q.toNat % 2 ^ N := by
  rw [recordBit, BitVec.toNat_or, bitWord_toNat h, shiftQuo_toNat]
  cases b
  · simp
  · simp

theorem add_one_eq_ofNat {w : Nat} (v : BitVec w) : v + 1#w = BitVec.ofNat w (v.toNat + 1) := by
  rw [BitVec.ofNat_add, BitVec.ofNat_toNat, BitVec.setWidth_eq]

/-- Rules R23, R102 and R132: the end of an iteration, with the counters as numbers. -/
theorem DivUnit.endIteration_countOne_eq (exit : Phase) (u : DivUnit N) :
    u.countOne.endIteration exit =
      { u with
        cnt := BitVec.ofNat (CW N) (u.cnt.toNat + 1)
        i := BitVec.ofNat (IW N) (if u.i.toNat = N - 1 then 0 else u.i.toNat + 1)
        ph := if u.i.toNat = N - 1 then exit else u.ph } := by
  by_cases hlast : u.i.toNat = N - 1
  · simp [endIteration, countOne, hlast, add_one_eq_ofNat]
  · simp [endIteration, countOne, hlast, add_one_eq_ofNat]

/-- Settles O6: `signFlag` of the trial difference is the test of its number against `2^N`, and each register written is the
word of its number. -/
theorem rdIterOneRestoringIteration : Obligations.RdIterOneRestoringIteration := by
  intro s start hN As Qs D
  have h1 : 1 ≤ s.N := by omega
  have hAs : (shiftAcc s.rd.A s.rd.Q).toNat = As := shiftAcc_toNat h1 _ _
  have hD : (shiftAcc s.rd.A s.rd.Q - zextAcc s.rd.M).toNat = D := by rw [accSub_toNat, hAs]
  have hneg : signFlag (shiftAcc s.rd.A s.rd.Q - zextAcc s.rd.M) = decide (2 ^ s.N ≤ D) := by
    rw [Bool.eq_iff_iff, signFlag_iff_toNat, hD, decide_eq_true_iff]
  have hQ := recordBit_toNat h1 s.rd.Q (!decide (2 ^ s.N ≤ D))
  rw [exec_rdIter, restoringIter_eq, hneg, DivUnit.endIteration_countOne_eq]
  by_cases hd : 2 ^ s.N ≤ D
  · simp only [hd, decide_true, Bool.not_true, Bool.false_eq_true, if_true, if_false] at hQ ⊢
    rw [eq_ofNat_of_toNat_eq hAs, eq_ofNat_of_toNat_eq hQ]
  · simp only [hd, decide_false, Bool.not_false, Bool.false_eq_true, if_true, if_false] at hQ ⊢
    rw [eq_ofNat_of_toNat_eq hD, eq_ofNat_of_toNat_eq hQ]

/-! ## FIX -/

/-- Rule R163 in numbers, for any magnitude. -/
theorem fixSign_eq_ofInt (m : Word N) (s : Bool) :
    fixSign m s = BitVec.ofInt N (if s then -(m.toNat : Int) else m.toNat) := by
  cases s
  · simp [fixSign]
  · simp [fixSign, BitVec.ofInt_neg]

/-- Settles O9: both result words are sign corrections, and dropping the top bit of `A` is a remainder modulo `2^N`. -/
theorem rdFixWritesResult : Obligations.RdFixWritesResult := by
  intro s start
  rw [exec_rdFix, DivUnit.writeResult, fixSign_eq_ofInt, fixSign_eq_ofInt, BitVec.toNat_setWidth]

end Sys2Proof.Machine
end

section
/-! PROOFS about refused steps and RD's reserved phase (rules R5 and R103). -/

namespace Sys2Proof.Machine

variable {N : Nat}

/-- What every step keeps, every run keeps. -/
theorem run_keeps {P : State → Prop} (hstep : ∀ s t, P s → step s = .next t → P t) (k : Nat) :
    ∀ {s t : State}, P s → run k s = .next t → P t := by
  induction k with
  | zero =>
    intro s t hs h
    rw [run_zero] at h
    cases h
    exact hs
  | succ k ih =>
    intro s t hs h
    rw [run_succ] at h
    cases hnext : step s with
    | next r => rw [hnext] at h; exact ih (hstep s r hs hnext) h
    | fault e => cases e
    | refused e => rw [hnext] at h; cases h

theorem DivUnit.accept_ph (a b : Word N) (u : DivUnit N) : (u.accept a b).ph = .iter ∨ (u.accept a b).ph = u.ph := by
  unfold accept
  split
  · exact .inl rfl
  · exact .inr rfl

/-- Rule R103: no row has RD in the reserved phase afterwards that did not find it there. -/
theorem exec_rd_ph_ne_corr {i : Instr} {s t : State} (h : exec i s = .next t) (hs : s.rd.ph ≠ .corr) :
    t.rd.ph ≠ .corr := by
  cases i with
  | rdReset | rdFix => cases h; nofun
  | rdIdle => cases h; exact hs
  | rdStart a b =>
    cases h
    obtain hph | hph := s.rd.accept_ph (operandWord s.N a) (operandWord s.N b)
    · exact fun hc => by cases hph.symm.trans hc
    · exact fun hc => hs (hph.symm.trans hc)
  | rdIter start =>
    cases h
    rw [State.setRd_rd, restoringIter_ph]
    split
    · nofun
    · exact hs
  | rdRsv start => cases h
  | nrdReset | nrdIdle | nrdStart | nrdIter | nrdCorr | nrdFix => cases h; exact hs

/-- Settles O11: RSV is refused, no row writes the phase (`exec_rd_ph_ne_corr`), and neither does a step, so no run does. -/
theorem rdReservedPhaseRefusedAndNeverEntered : Obligations.RdReservedPhaseRefusedAndNeverEntered := by
  refine ⟨fun s start => exec_rdRsv start s, fun i s t h => exec_rd_ph_ne_corr h, fun k s t h hs => ?_⟩
  refine run_keeps (P := fun s => s.rd.ph ≠ .corr) (fun s t hs h => ?_) k hs h
  obtain ⟨-, -, rfl⟩ := step_next h
  exact rdEdge_ph_ne_corr _ _ hs

/-- Everything a step can do, as three cases. -/
theorem step_cases (s : State) :
    (s.N < 2 ∧ step s = .refused .widthBelowTwo) ∨
    (2 ≤ s.N ∧ s.nextEdge.rst = false ∧ s.rd.ph = .corr ∧ step s = .refused .rdReservedPhase) ∨
    (2 ≤ s.N ∧ ¬(s.nextEdge.rst = false ∧ s.rd.ph = .corr) ∧ step s = .next s.after) := by
  rw [step_eq]
  by_cases hN : s.N < 2
  · exact .inl ⟨hN, if_pos hN⟩
  · rw [if_neg hN]
    by_cases hres : s.nextEdge.rst = false ∧ s.rd.ph = .corr
    · exact .inr (.inl ⟨by omega, hres.1, hres.2, if_pos hres⟩)
    · exact .inr (.inr ⟨by omega, hres, if_neg hres⟩)

/-- Settles O29: the refusals are the first two of the three cases of a step, which exclude each other. -/
theorem stepRefusedExactlyWhen : Obligations.StepRefusedExactlyWhen := by
  intro s
  obtain ⟨hN, h⟩ | ⟨hN, hrst, hph, h⟩ | ⟨hN, hlegal, h⟩ := step_cases s
  · have hN' : ¬2 ≤ s.N := by omega
    exact ⟨.inr ⟨_, h⟩, fun r => by simp [h, hN, hN', eq_comm (a := r)]⟩
  · have hN' : ¬s.N < 2 := by omega
    exact ⟨.inr ⟨_, h⟩, fun r => by simp [h, hN, hN', hrst, hph, eq_comm (a := r)]⟩
  · have hN' : ¬s.N < 2 := by omega
    exact ⟨.inl ⟨_, h⟩, fun r => by rw [h]; exact iff_of_false nofun (by tauto)⟩

end Sys2Proof.Machine
end

section
/-! PROOFS that RD divides (rules R105 to R107, R164 and R239): what holds of RD after `k` iterations of an operation
(`RdOperation`), which the accepting edge establishes and each iteration carries on. -/

namespace Sys2Proof.Machine

variable {N : Nat}

/-! ## The last edge of a run -/

/-- `rdRun` takes the first edge first; this is its last edge. -/
theorem rdRun_succ_last (k : Nat) : ∀ (ins : List (Edge N)) (u : DivUnit N),
    rdRun (k + 1) ins u =
      rdEdge ((ins.drop k).headD (Edge.quiet N)).rst ((ins.drop k).headD (Edge.quiet N)).rd (rdRun k ins u) := by
  induction k with
  | zero => intro ins u; rfl
  | succ k ih =>
    intro ins u
    rw [rdRun, ih, List.drop_tail]
    rfl

/-- RD's next edge in a run that no reset interrupts. -/
theorem State.NoReset.rdRun_succ {s : State} {n k : Nat} (h : s.NoReset n) (hk : k < n) :
    rdRun (k + 1) s.inputs s.rd = rdEdge false (s.edgeAt k).rd (rdRun k s.inputs s.rd) := by
  rw [rdRun_succ_last, ← h k hk]
  rfl

/-! ## The signs that an operation latches -/

/-- `sq`, `sr` and `M` hold the signs of the operands `x` and `y` and the magnitude of `y` (rules R101 and R131). -/
structure DivUnit.Latched (x y : Int) (u : DivUnit N) : Prop where
  dividend : x = if u.sr then -(x.natAbs : Int) else x.natAbs
  divisor : y = if xor u.sq u.sr then -(u.M.toNat : Int) else u.M.toNat

theorem DivUnit.Latched.natAbs_divisor {x y : Int} {u : DivUnit N} (h : u.Latched x y) : u.M.toNat = y.natAbs := by
  rw [h.divisor]
  split
  · simp
  · simp

theorem eq_signed_natAbs (x : Int) : x = if decide (x < 0) then -(x.natAbs : Int) else x.natAbs := by
  split
  · next h => simp only [decide_eq_true_iff] at h; omega
  · next h => simp only [decide_eq_true_iff] at h; omega

theorem DivUnit.initialise_latched (h : 1 ≤ N) (a b : Word N) (u : DivUnit N) :
    (u.initialise a b).Latched a.toInt b.toInt where
  dividend := by
    simpa [initialise, signBit_eq_decide h] using eq_signed_natAbs a.toInt
  divisor := by
    have hsign : xor (xor (signBit a) (signBit b)) (signBit a) = decide (b.toInt < 0) := by
      rw [Bool.xor_comm, ← Bool.xor_assoc, Bool.xor_self, Bool.false_xor, signBit_eq_decide h]
    simp only [initialise, hsign, mag_toNat h]
    exact eq_signed_natAbs b.toInt

theorem DivUnit.Latched.restoringIter {x y : Int} {u : DivUnit N} (h : u.Latched x y) :
    u.restoringIter.Latched x y where
  dividend := by simpa [restoringIter_eq] using h.dividend
  divisor := by simpa [restoringIter_eq] using h.divisor

/-- An operation that has just been accepted has all its edges left (rule R239). -/
theorem DivUnit.initialise_edgesLeft (h : 1 ≤ N) (id : UnitId) (a b : Word N) (u : DivUnit N) :
    (u.initialise a b).EdgesLeft id (N + tailEdges id) where
  err := rfl
  done := by simp [initialise]; omega
  phase := .inr (.inr (.inr ⟨rfl, h, by simp [initialise]⟩))

/-! ## RD after `k` iterations -/

/-- RD after `k` iterations of the division of `x` by `y`. -/
structure RdOperation (x y : Int) (k : Nat) (u : DivUnit N) : Prop where
  loop : RdLoop x.natAbs k u
  latched : u.Latched x y
  index : u.i.toNat = k % N
  left : u.EdgesLeft .rd (N + 1 - k)

theorem rdOperation_zero (h : 1 ≤ N) {a b : Word N} (hc : chk a b = .none) (u : DivUnit N) :
    RdOperation a.toInt b.toInt 0 (u.initialise a b) where
  loop := (loop_start h hc u).1
  latched := u.initialise_latched h a b
  index := by simp [DivUnit.initialise]
  left := u.initialise_edgesLeft h .rd a b

/-- Rule R105: the unit iterates until `k = N`, and is then at FIX. -/
theorem RdOperation.ph_eq {x y : Int} {k : Nat} {u : DivUnit N} (h : RdOperation x y k u) (hk : k ≤ N) :
    u.ph = if k = N then .fix else .iter := by
  obtain ⟨-, hm⟩ | ⟨hph, hm⟩ | ⟨-, hid, -⟩ | ⟨hph, hi, hm⟩ := h.left.phase
  · omega
  · rw [hph, if_pos (by omega)]
  · cases hid
  · simp only [tailEdges] at hm
    rw [hph, if_neg (by omega)]

theorem RdOperation.ph_ne_idle {x y : Int} {k : Nat} {u : DivUnit N} (h : RdOperation x y k u) (hk : k ≤ N) :
    u.ph ≠ .idle := by
  rw [h.ph_eq hk]
  split
  · nofun
  · nofun

/-- Rule R23: `i` counts up, and the last iteration, of either unit, clears it. -/
theorem endIteration_i_eq (hN : 2 ≤ N) (exit : Phase) {u : DivUnit N} {k : Nat} (h : u.i.toNat = k) (hk : k < N) :
    (u.endIteration exit).i.toNat = (k + 1) % N := by
  by_cases hlast : k = N - 1
  · rw [(u.endIteration_last exit (h.trans hlast)).1, show k + 1 = N by omega]
    simp
  · rw [endIteration_i hN exit (by omega), h, Nat.mod_eq_of_lt (by omega)]

theorem restoringIter_i_eq (hN : 2 ≤ N) {u : DivUnit N} {k : Nat} (h : u.i.toNat = k) (hk : k < N) :
    u.restoringIter.i.toNat = (k + 1) % N := by
  rw [restoringIter_eq]
  exact endIteration_i_eq hN .fix h hk

theorem RdOperation.succ (hN : 2 ≤ N) {x y : Int} {k : Nat} {u : DivUnit N} (h : RdOperation x y k u) (hk : k < N)
    (inp : UnitIn N) : RdOperation x y (k + 1) (rdEdge false inp u) := by
  have hph : u.ph = .iter := by rw [h.ph_eq hk.le, if_neg hk.ne]
  have hi : u.i.toNat = k := by rw [h.index, Nat.mod_eq_of_lt hk]
  have hleft : u.EdgesLeft .rd (N + 1 - (k + 1) + 1) := by
    rw [show N + 1 - (k + 1) + 1 = N + 1 - k by omega]
    exact h.left
  have hnext := hleft.rdEdge hN inp
  rw [rdEdge_iter inp hph] at hnext ⊢
  exact ⟨h.loop.restoringIter (by omega) hk, h.latched.restoringIter, restoringIter_i_eq hN hi hk, hnext⟩

/-- Rule R160: the remainder so far is not negative. -/
theorem RdLoop.signFlag_eq_false {Dv k : Nat} {u : DivUnit N} (h : RdLoop Dv k u) : signFlag u.A = false := by
  have hR : topBits N Dv k % u.M.toNat < u.M.toNat := Nat.mod_lt _ h.divisor_pos
  have hM := u.M.isLt
  rw [← Bool.not_eq_true, signFlag_iff_toNat, h.acc]
  omega

/-- Rules R106, R107 and R239: FIX ends the operation with its results. -/
theorem RdOperation.writeResult (hN : 2 ≤ N) {x y : Int} {u : DivUnit N} (h : RdOperation x y N u) :
    u.writeResult.EdgesLeft .rd 0 ∧ u.writeResult.quoR.toInt = quotOf x y ∧ u.writeResult.remR.toInt = remOf x y ∧
    u.writeResult.cntR.toNat = N := by
  obtain ⟨hquo, hrem⟩ := h.loop.atFix.writeResult (by omega) h.latched.dividend h.latched.divisor
  exact ⟨h.left.writeResult, hquo, hrem, h.loop.count⟩

/-! ## An operation in a run -/

/-- RD is idle and accepts `x / y` at the next edge, and no reset comes before its result (rules R101, R105 and R239). -/
structure State.RdAccepts (x y : Int) (s : State) : Prop where
  width : 2 ≤ s.N
  idle : s.rd.ph = .idle
  noReset : s.NoReset (s.N + 2)
  start : (s.edgeAt 0).rd.start = true
  dividend : (s.edgeAt 0).rd.dividend.toInt = x
  divisor : (s.edgeAt 0).rd.divisor.toInt = y
  valid : chk (s.edgeAt 0).rd.dividend (s.edgeAt 0).rd.divisor = .none

theorem State.RdAccepts.run_eq {x y : Int} {s : State} (h : s.RdAccepts x y) (k : Nat) :
    run k s = .next ⟨s.N, rdRun k s.inputs s.rd, nrdRun k s.inputs s.nrd, s.inputs.drop k⟩ :=
  Machine.run_eq h.width k s.rd s.nrd s.inputs (by simp [h.idle])

/-- The accepting edge starts the operation, and `k` more edges are `k` iterations. -/
theorem State.RdAccepts.operation {x y : Int} {s : State} (h : s.RdAccepts x y) (k : Nat) (hk : k ≤ s.N) :
    RdOperation x y k (rdRun (k + 1) s.inputs s.rd) := by
  have hN := h.width
  induction k with
  | zero =>
    have hedge : rdRun 1 s.inputs s.rd = rdEdge false (s.edgeAt 0).rd s.rd := h.noReset.rdRun_succ (by omega)
    rw [hedge, rdEdge_idle _ h.idle, if_pos h.start, DivUnit.accept_of_valid h.valid, ← h.dividend, ← h.divisor]
    exact rdOperation_zero (by omega) h.valid s.rd
  | succ k ih =>
    rw [h.noReset.rdRun_succ (by omega)]
    exact (ih (by omega)).succ hN hk _

/-- The edge after the last iteration is FIX (rule R105). -/
theorem State.RdAccepts.rdRun_last {x y : Int} {s : State} (h : s.RdAccepts x y) :
    rdRun (s.N + 2) s.inputs s.rd = (rdRun (s.N + 1) s.inputs s.rd).writeResult := by
  have hph := (h.operation s.N le_rfl).ph_eq le_rfl
  rw [if_pos rfl] at hph
  rw [h.noReset.rdRun_succ (by omega), rdEdge_fix _ hph]

/-- The hypotheses of the two statements below say that RD accepts. -/
theorem State.rdAccepts {s : State} (hN : 2 ≤ s.N) (hidle : s.rd.ph = .idle) (hreset : s.NoReset (s.N + 2))
    (hstart : (s.edgeAt 0).rd.start = true) (ha : IsOperand s.N (s.edgeAt 0).rd.dividend.toInt)
    (hb : IsOperand s.N (s.edgeAt 0).rd.divisor.toInt) (hb0 : (s.edgeAt 0).rd.divisor.toInt ≠ 0) :
    s.RdAccepts (s.edgeAt 0).rd.dividend.toInt (s.edgeAt 0).rd.divisor.toInt :=
  ⟨hN, hidle, hreset, hstart, rfl, rfl, (chk_eq_none_iff (by omega) _ _).2 ⟨ha, hb, hb0⟩⟩

/-- Settles O41: after `k` iterations RD is as `RdOperation` says, which is the statement with `Dk` named `topBits`. -/
theorem rdPathAndLoopInvariant : Obligations.RdPathAndLoopInvariant := by
  intro s hN hidle hreset hstart ha hb hb0 Dv M
  have hacc := State.rdAccepts hN hidle hreset hstart ha hb hb0
  refine ⟨fun k hk => ?_, ⟨_, hacc.run_eq (s.N + 2), ?_⟩⟩
  · have hop := hacc.operation k hk
    have hM : (rdRun (k + 1) s.inputs s.rd).M.toNat = M := hop.latched.natAbs_divisor
    exact ⟨_, hacc.run_eq (k + 1), hop.ph_eq hk, hop.index, by rw [← hM]; exact hop.loop.acc,
      hop.loop.signFlag_eq_false, by rw [← hM]; exact hop.loop.quotient⟩
  · exact congrArg DivUnit.ph hacc.rdRun_last

/-- Settles O39: a unit with edges left is busy and shows no result; FIX is the last edge and writes it. -/
theorem rdDivides : Obligations.RdDivides := by
  intro s hN hidle hreset hstart ha hb hb0
  have hacc := State.rdAccepts hN hidle hreset hstart ha hb hb0
  refine ⟨fun k hk1 hk => ?_, ⟨_, hacc.run_eq (s.N + 2), rfl, ?_⟩⟩
  · obtain ⟨k, rfl⟩ : ∃ j, k = j + 1 := ⟨k - 1, by omega⟩
    have hop := hacc.operation k (by omega)
    exact ⟨_, hacc.run_eq (k + 1), (DivUnit.outputs_busy _).2 (hop.ph_ne_idle (by omega)),
      hop.left.done.trans (decide_eq_false (by omega))⟩
  · obtain ⟨hleft, hquo, hrem, hcnt⟩ := (hacc.operation s.N le_rfl).writeResult hN
    dsimp only
    rw [hacc.rdRun_last]
    exact ⟨rfl, rfl, congrArg ErrCode.code hleft.err, hquo, hrem, hcnt⟩

end Sys2Proof.Machine
end

section
/-! PROOFS about the rows of NRD, one at a time (rules R131 to R134), and about the two readings of its sign test (rule
R138). -/

namespace Sys2Proof.Machine

variable {N : Nat}

/-! ## What `exec` of a row is -/

theorem exec_nrdStart (s : State) (a b : Word s.N) :
    exec (.nrdStart a.toNat b.toNat) s = .next (s.setNrd (s.nrd.accept a b)) := by
  simp [exec, execNrdStart]

theorem exec_nrdIter (start : Bool) (s : State) :
    exec (.nrdIter start) s = .next (s.setNrd s.nrd.nonRestoringIter) := rfl

theorem exec_nrdCorr (start : Bool) (s : State) : exec (.nrdCorr start) s = .next (s.setNrd s.nrd.correct) := rfl

theorem exec_nrdFix (start : Bool) (s : State) : exec (.nrdFix start) s = .next (s.setNrd s.nrd.writeResult) := rfl

/-! ## START -/

/-- Settles O4: the check finds nothing (`chk_eq_none_iff`), so the row initialises, as RD's does. -/
theorem nrdStartInitialises : Obligations.NrdStartInitialises := by
  intro s a b hN ha hb hb0
  have h1 : 1 ≤ s.N := by omega
  have hc : chk a b = .none := (chk_eq_none_iff h1 a b).2 ⟨ha, hb, hb0⟩
  rw [exec_nrdStart, DivUnit.accept_of_valid hc, DivUnit.initialise_eq h1]

/-! ## ITER -/

theorem accAdd_toNat (As : Acc N) (M : Word N) :
    (As + zextAcc M).toNat = (((As.toNat : Int) + M.toNat) % 2 ^ (N + 1)).toNat := by
  rw [BitVec.toNat_add, zextAcc_toNat]
  norm_cast

/-- Rule R132: `An` as a number, added to or subtracted from as the sign of `A` before the shift says. -/
theorem addOrSub_toNat (A As : Acc N) (M : Word N) :
    (if signFlag A then As + zextAcc M else As - zextAcc M).toNat =
      (((As.toNat : Int) + (if A.toInt < 0 then (M.toNat : Int) else -(M.toNat : Int))) % 2 ^ (N + 1)).toNat := by
  by_cases hneg : A.toInt < 0
  · rw [if_pos ((signFlag_iff_toInt A).2 hneg), if_pos hneg, accAdd_toNat]
  · rw [if_neg (by rwa [signFlag_iff_toInt]), if_neg hneg, accSub_toNat, sub_eq_add_neg]

/-- Settles O7: `An` is the word of its number (`addOrSub_toNat`), whose sign flag is the test of that number against `2^N`. -/
theorem nrdIterOneNonRestoringIteration : Obligations.NrdIterOneNonRestoringIteration := by
  intro s start hN As Qs An
  have h1 : 1 ≤ s.N := by omega
  have hAn := addOrSub_toNat s.nrd.A (shiftAcc s.nrd.A s.nrd.Q) s.nrd.M
  rw [shiftAcc_toNat h1] at hAn
  rw [exec_nrdIter, nonRestoringIter_eq, DivUnit.endIteration_countOne_eq]
  generalize (if signFlag s.nrd.A then shiftAcc s.nrd.A s.nrd.Q + zextAcc s.nrd.M
    else shiftAcc s.nrd.A s.nrd.Q - zextAcc s.nrd.M) = v at hAn ⊢
  have hneg : signFlag v = decide (2 ^ s.N ≤ An) := by
    rw [Bool.eq_iff_iff, signFlag_iff_toNat, hAn, decide_eq_true_iff]
  have hQ : (recordBit (shiftQuo s.nrd.Q) (!signFlag v)).toNat = Qs ||| (if 2 ^ s.N ≤ An then 0 else 1) := by
    rw [recordBit_toNat h1, hneg]
    by_cases hn : 2 ^ s.N ≤ An
    · simp [hn, Qs]
    · simp [hn, Qs]
  rw [eq_ofNat_of_toNat_eq hQ, eq_ofNat_of_toNat_eq hAn]

/-- Settles O24: nothing wraps in the shift (`shiftAcc_toInt`), and `2A` plus a bit is negative exactly when `A` is. -/
theorem signBeforeShiftIsSignAfter : Obligations.SignBeforeShiftIsSignAfter := by
  intro N A Q M hN hM hlo hhi
  have h1 : 1 ≤ N := by omega
  have hp := two_pow_pred h1
  have hpos := Nat.two_pow_pos (N - 1)
  have hP : ((2 : Int) ^ N) = ((2 ^ N : Nat) : Int) := by push_cast; rfl
  have hbit := (Q.getLsbD (N - 1)).toNat_lt
  have hval : (shiftAcc A Q).toInt = 2 * A.toInt + (Q.getLsbD (N - 1)).toNat := by
    rw [topBit_toNat h1] at hbit ⊢
    exact shiftAcc_toInt h1 A Q (by omega) (by omega)
  have hsign : signFlag (shiftAcc A Q) = signFlag A := by
    rw [signFlag_eq_decide, signFlag_eq_decide, hval, decide_eq_decide]
    omega
  exact ⟨hval, by omega, by omega, hsign⟩

/-! ## CORR -/

theorem add_zextAcc_eq_ofNat (A : Acc N) (M : Word N) : A + zextAcc M = BitVec.ofNat (N + 1) (A.toNat + M.toNat) := by
  rw [BitVec.ofNat_add, BitVec.ofNat_toNat, BitVec.setWidth_eq, ← eq_ofNat_of_toNat_eq (zextAcc_toNat M)]

/-- Settles O8: the sign flag is the sign of `A`; the addition and the count are then made, or nothing is. -/
theorem nrdCorrAddsOnceWhenNegative : Obligations.NrdCorrAddsOnceWhenNegative := by
  intro s start
  rw [exec_nrdCorr, DivUnit.correct, signFlag_eq_decide]
  by_cases hneg : s.nrd.A.toInt < 0
  · simp [hneg, DivUnit.countOne, add_zextAcc_eq_ofNat, add_one_eq_ofNat]
  · simp [hneg]

/-! ## FIX -/

/-- Settles O10: FIX is the same operation as RD's, on NRD's registers. -/
theorem nrdFixWritesResult : Obligations.NrdFixWritesResult := by
  intro s start
  rw [exec_nrdFix, DivUnit.writeResult, fixSign_eq_ofInt, fixSign_eq_ofInt, BitVec.toNat_setWidth]

end Sys2Proof.Machine
end

section
/-! PROOFS that NRD divides (rules R135 to R137, R165 to R167 and R239): the edges that NRD has left give its phase at every
edge of an operation (`nrdPhase`), what holds after `k` iterations is `NrdOperation`, and what CORR makes of it is
`NrdCorrected`. -/

namespace Sys2Proof.Machine

variable {N : Nat}

/-! ## The last edge of a run -/

/-- `nrdRun` takes the first edge first; this is its last edge. -/
theorem nrdRun_succ_last (k : Nat) : ∀ (ins : List (Edge N)) (u : DivUnit N),
    nrdRun (k + 1) ins u =
      nrdEdge ((ins.drop k).headD (Edge.quiet N)).rst ((ins.drop k).headD (Edge.quiet N)).nrd (nrdRun k ins u) := by
  induction k with
  | zero => intro ins u; rfl
  | succ k ih =>
    intro ins u
    rw [nrdRun, ih, List.drop_tail]
    rfl

/-- NRD's next edge in a run that no reset interrupts. -/
theorem State.NoReset.nrdRun_succ {s : State} {n k : Nat} (h : s.NoReset n) (hk : k < n) :
    nrdRun (k + 1) s.inputs s.nrd = nrdEdge false (s.edgeAt k).nrd (nrdRun k s.inputs s.nrd) := by
  rw [nrdRun_succ_last, ← h k hk]
  rfl

/-! ## NRD's path -/

/-- Rules R135 and R239: NRD's phase when it has `m` edges left. -/
def nrdPhase : Nat → Phase
  | 0 => .idle
  | 1 => .fix
  | 2 => .corr
  | _ + 3 => .iter

theorem DivUnit.EdgesLeft.ph_eq_nrdPhase {m : Nat} {u : DivUnit N} (h : u.EdgesLeft .nrd m) : u.ph = nrdPhase m := by
  obtain ⟨hph, rfl⟩ | ⟨hph, rfl⟩ | ⟨hph, -, rfl⟩ | ⟨hph, hi, hm⟩ := h.phase
  · exact hph
  · exact hph
  · exact hph
  · obtain ⟨j, rfl⟩ : ∃ j, m = j + 3 := ⟨m - 3, by simp only [tailEdges] at hm; omega⟩
    exact hph

theorem nrdPhase_ne_idle {m : Nat} (h : m ≠ 0) : nrdPhase m ≠ .idle := by
  match m with
  | 1 | 2 | _ + 3 => nofun

/-- Rule R135: after the accepting edge and `k` more, NRD iterates until `k = N`, where it is at CORR. -/
theorem nrdPhase_of_le {k : Nat} (hk : k ≤ N) : nrdPhase (N + 2 - k) = if k = N then .corr else .iter := by
  by_cases h : k = N
  · rw [if_pos h, show N + 2 - k = 2 by omega]
    rfl
  · obtain ⟨j, hj⟩ : ∃ j, N + 2 - k = j + 3 := ⟨N - k - 1, by omega⟩
    rw [if_neg h, hj]
    rfl

/-! ## The loop invariant by the last quotient bit -/

theorem getLsbD_zero_iff (w : Word N) : w.getLsbD 0 = true ↔ w.toNat % 2 = 1 := by
  simp [BitVec.getLsbD, Nat.testBit_zero]

/-- Rule R165, with the last quotient bit read from `Q`. -/
theorem NrdLoop.acc_eq {Dv k : Nat} {u : DivUnit N} (h : NrdLoop Dv k u) :
    u.A.toInt =
      if k = 0 then 0
      else if u.Q.getLsbD 0 then ((topBits N Dv k % u.M.toNat : Nat) : Int)
      else ((topBits N Dv k % u.M.toNat : Nat) : Int) - u.M.toNat := by
  simp only [getLsbD_zero_iff]
  exact h.acc

/-- Rule R160: `A` stays in `[-M, M-1]`. -/
theorem NrdLoop.acc_range {Dv k : Nat} {u : DivUnit N} (h : NrdLoop Dv k u) (hN : 1 ≤ N) :
    -(u.M.toNat : Int) ≤ u.A.toInt ∧ u.A.toInt ≤ u.M.toNat - 1 := by
  have hR : topBits N Dv k % u.M.toNat < u.M.toNat := Nat.mod_lt _ h.divisor_pos
  obtain ⟨-, hA⟩ | ⟨-, hA⟩ := h.acc_cases hN
  · omega
  · omega

/-- After an iteration `A` is negative exactly when the quotient bit just recorded is 0 (rule R132). -/
theorem NrdLoop.signFlag_iff {Dv k : Nat} {u : DivUnit N} (h : NrdLoop Dv k u) (hk : 1 ≤ k) :
    signFlag u.A = true ↔ u.Q.getLsbD 0 = false := by
  have hR : topBits N Dv k % u.M.toNat < u.M.toNat := Nat.mod_lt _ h.divisor_pos
  have hA := h.acc_eq
  rw [if_neg (by omega)] at hA
  rw [signFlag_iff_toInt, hA]
  cases u.Q.getLsbD 0
  · exact iff_of_true (by simp only [Bool.false_eq_true, if_false]; omega) rfl
  · exact iff_of_false (by simp only [if_true]; omega) nofun

/-- Rule R160: once corrected, the accumulator is not negative. -/
theorem AtFix.signFlag_eq_false {Dv : Nat} {u : DivUnit N} (h : AtFix Dv u) : signFlag u.A = false := by
  have hR : Dv % u.M.toNat < u.M.toNat := Nat.mod_lt _ h.divisor_pos
  have hM := u.M.isLt
  rw [← Bool.not_eq_true, signFlag_iff_toNat, h.acc]
  omega

/-! ## NRD after `k` iterations -/

theorem DivUnit.Latched.nonRestoringIter {x y : Int} {u : DivUnit N} (h : u.Latched x y) :
    u.nonRestoringIter.Latched x y where
  dividend := by simpa [nonRestoringIter_eq] using h.dividend
  divisor := by simpa [nonRestoringIter_eq] using h.divisor

theorem DivUnit.Latched.correct {x y : Int} {u : DivUnit N} (h : u.Latched x y) : u.correct.Latched x y := by
  unfold DivUnit.correct
  split
  · exact ⟨h.dividend, h.divisor⟩
  · exact ⟨h.dividend, h.divisor⟩

theorem nonRestoringIter_i_eq (hN : 2 ≤ N) {u : DivUnit N} {k : Nat} (h : u.i.toNat = k) (hk : k < N) :
    u.nonRestoringIter.i.toNat = (k + 1) % N := by
  rw [nonRestoringIter_eq]
  exact endIteration_i_eq hN .corr h hk

/-- The registers of NRD after `k` iterations of the division of `x` by `y`. -/
structure NrdOperation (x y : Int) (k : Nat) (u : DivUnit N) : Prop where
  loop : NrdLoop x.natAbs k u
  latched : u.Latched x y
  index : u.i.toNat = k % N

theorem nrdOperation_zero (h : 1 ≤ N) {a b : Word N} (hc : chk a b = .none) (u : DivUnit N) :
    NrdOperation a.toInt b.toInt 0 (u.initialise a b) where
  loop := (loop_start h hc u).2
  latched := u.initialise_latched h a b
  index := by simp [DivUnit.initialise]

theorem NrdOperation.nonRestoringIter (hN : 2 ≤ N) {x y : Int} {k : Nat} {u : DivUnit N} (h : NrdOperation x y k u)
    (hk : k < N) : NrdOperation x y (k + 1) u.nonRestoringIter where
  loop := h.loop.nonRestoringIter (by omega) hk
  latched := h.latched.nonRestoringIter
  index := nonRestoringIter_i_eq hN (by rw [h.index, Nat.mod_eq_of_lt hk]) hk

/-- The registers of NRD at FIX in the division of `x` by `y`. -/
structure NrdCorrected (x y : Int) (u : DivUnit N) : Prop where
  atFix : AtFix x.natAbs u
  latched : u.Latched x y
  count : u.cnt.toNat = nrdCount N x.natAbs y.natAbs

theorem NrdOperation.correct (hN : 2 ≤ N) {x y : Int} {u : DivUnit N} (h : NrdOperation x y N u) :
    NrdCorrected x y u.correct := by
  obtain ⟨hfix, hcnt⟩ := h.loop.correct (by omega)
  exact ⟨hfix, h.latched.correct, by rw [hcnt, h.latched.natAbs_divisor]⟩

/-- Rules R136 and R137: the results that FIX writes. -/
theorem NrdCorrected.writeResult (hN : 2 ≤ N) {x y : Int} {u : DivUnit N} (h : NrdCorrected x y u) :
    u.writeResult.quoR.toInt = quotOf x y ∧ u.writeResult.remR.toInt = remOf x y ∧
    u.writeResult.cntR.toNat = nrdCount N x.natAbs y.natAbs := by
  obtain ⟨hquo, hrem⟩ := h.atFix.writeResult (by omega) h.latched.dividend h.latched.divisor
  exact ⟨hquo, hrem, h.count⟩

/-- Rule R167's count as the statement writes it, on the operands' absolute values. -/
theorem nrdCount_natAbs (x y : Int) : nrdCount N x.natAbs y.natAbs = N + 1 - (|x| / |y| % 2).toNat := by
  rw [nrdCount, ← Int.natCast_natAbs, ← Int.natCast_natAbs]
  rfl

/-! ## An operation in a run -/

/-- NRD is idle and accepts `x / y` at the next edge, no reset comes before its result, and RD lets the machine run (rules
R103, R131, R135 and R239). -/
structure State.NrdAccepts (x y : Int) (s : State) : Prop where
  width : 2 ≤ s.N
  legal : s.rd.ph ≠ .corr
  idle : s.nrd.ph = .idle
  noReset : s.NoReset (s.N + 3)
  start : (s.edgeAt 0).nrd.start = true
  dividend : (s.edgeAt 0).nrd.dividend.toInt = x
  divisor : (s.edgeAt 0).nrd.divisor.toInt = y
  valid : chk (s.edgeAt 0).nrd.dividend (s.edgeAt 0).nrd.divisor = .none

theorem State.NrdAccepts.run_eq {x y : Int} {s : State} (h : s.NrdAccepts x y) (k : Nat) :
    run k s = .next ⟨s.N, rdRun k s.inputs s.rd, nrdRun k s.inputs s.nrd, s.inputs.drop k⟩ :=
  Machine.run_eq h.width k s.rd s.nrd s.inputs h.legal

theorem State.NrdAccepts.nrdRun_one {x y : Int} {s : State} (h : s.NrdAccepts x y) :
    nrdRun 1 s.inputs s.nrd = s.nrd.initialise (s.edgeAt 0).nrd.dividend (s.edgeAt 0).nrd.divisor := by
  have hedge : nrdRun 1 s.inputs s.nrd = nrdEdge false (s.edgeAt 0).nrd s.nrd := h.noReset.nrdRun_succ (by omega)
  rw [hedge, nrdEdge_idle _ h.idle, if_pos h.start, DivUnit.accept_of_valid h.valid]

/-- Rule R239: each edge after the accepting one takes one from the `N + 2` edges left. -/
theorem State.NrdAccepts.edgesLeft {x y : Int} {s : State} (h : s.NrdAccepts x y) (k : Nat) (hk : k ≤ s.N + 2) :
    (nrdRun (k + 1) s.inputs s.nrd).EdgesLeft .nrd (s.N + 2 - k) := by
  have hN := h.width
  induction k with
  | zero =>
    rw [h.nrdRun_one]
    exact s.nrd.initialise_edgesLeft (by omega) .nrd _ _
  | succ k ih =>
    have hleft := ih (by omega)
    rw [show s.N + 2 - k = s.N + 2 - (k + 1) + 1 by omega] at hleft
    rw [h.noReset.nrdRun_succ (by omega)]
    exact hleft.nrdEdge hN _

theorem State.NrdAccepts.ph_eq {x y : Int} {s : State} (h : s.NrdAccepts x y) (k : Nat) (hk : k ≤ s.N + 2) :
    (nrdRun (k + 1) s.inputs s.nrd).ph = nrdPhase (s.N + 2 - k) :=
  (h.edgesLeft k hk).ph_eq_nrdPhase

/-- The accepting edge starts the operation, and `k` more edges are `k` iterations. -/
theorem State.NrdAccepts.operation {x y : Int} {s : State} (h : s.NrdAccepts x y) (k : Nat) (hk : k ≤ s.N) :
    NrdOperation x y k (nrdRun (k + 1) s.inputs s.nrd) := by
  have hN := h.width
  induction k with
  | zero =>
    rw [h.nrdRun_one, ← h.dividend, ← h.divisor]
    exact nrdOperation_zero (by omega) h.valid s.nrd
  | succ k ih =>
    have hph := h.ph_eq k (by omega)
    rw [nrdPhase_of_le (by omega), if_neg (by omega)] at hph
    rw [h.noReset.nrdRun_succ (by omega), nrdEdge_iter _ hph]
    exact (ih (by omega)).nonRestoringIter hN hk

/-- The edge after the last iteration is CORR (rule R135). -/
theorem State.NrdAccepts.corrected {x y : Int} {s : State} (h : s.NrdAccepts x y) :
    NrdCorrected x y (nrdRun (s.N + 2) s.inputs s.nrd) := by
  have hph := h.ph_eq s.N (by omega)
  rw [nrdPhase_of_le le_rfl, if_pos rfl] at hph
  rw [h.noReset.nrdRun_succ (by omega), nrdEdge_corr _ hph]
  exact (h.operation s.N le_rfl).correct h.width

/-- The edge after CORR is FIX (rule R135). -/
theorem State.NrdAccepts.nrdRun_last {x y : Int} {s : State} (h : s.NrdAccepts x y) :
    nrdRun (s.N + 3) s.inputs s.nrd = (nrdRun (s.N + 2) s.inputs s.nrd).writeResult := by
  have hph := h.ph_eq (s.N + 1) (by omega)
  rw [show s.N + 2 - (s.N + 1) = 1 by omega] at hph
  rw [h.noReset.nrdRun_succ (by omega), nrdEdge_fix _ hph]

/-- The hypotheses of the two statements below say that NRD accepts. -/
theorem State.nrdAccepts {s : State} (hN : 2 ≤ s.N) (hlegal : s.rd.ph ≠ .corr) (hidle : s.nrd.ph = .idle)
    (hreset : s.NoReset (s.N + 3)) (hstart : (s.edgeAt 0).nrd.start = true)
    (ha : IsOperand s.N (s.edgeAt 0).nrd.dividend.toInt) (hb : IsOperand s.N (s.edgeAt 0).nrd.divisor.toInt)
    (hb0 : (s.edgeAt 0).nrd.divisor.toInt ≠ 0) :
    s.NrdAccepts (s.edgeAt 0).nrd.dividend.toInt (s.edgeAt 0).nrd.divisor.toInt :=
  ⟨hN, hlegal, hidle, hreset, hstart, rfl, rfl, (chk_eq_none_iff (by omega) _ _).2 ⟨ha, hb, hb0⟩⟩

/-- Settles O42: the edges left give the phase, `NrdLoop` holds after each iteration, and the correction makes it `AtFix`. -/
theorem nrdPathAndLoopInvariant : Obligations.NrdPathAndLoopInvariant := by
  intro s hN hlegal hidle hreset hstart ha hb hb0 Dv M
  have hacc := State.nrdAccepts hN hlegal hidle hreset hstart ha hb hb0
  refine ⟨fun k hk => ?_, ⟨_, hacc.run_eq (s.N + 2), ?_⟩, ⟨_, hacc.run_eq (s.N + 3), ?_⟩⟩
  · obtain ⟨hloop, hlatched, hindex⟩ := hacc.operation k hk
    have hph := (hacc.ph_eq k (by omega)).trans (nrdPhase_of_le hk)
    have hM : (nrdRun (k + 1) s.inputs s.nrd).M.toNat = M := hlatched.natAbs_divisor
    have hquo := hloop.quotient
    have hA := hloop.acc_eq
    have hrange := hloop.acc_range (by omega)
    rw [hM] at hquo hA hrange
    exact ⟨_, hacc.run_eq (k + 1), hph, hindex, hquo, hA, hloop.signFlag_iff, hrange⟩
  · obtain ⟨hfix, hlatched, -⟩ := hacc.corrected
    have hph := hacc.ph_eq (s.N + 1) (by omega)
    rw [show s.N + 2 - (s.N + 1) = 1 by omega] at hph
    exact ⟨hph, by rw [hfix.acc, hlatched.natAbs_divisor], hfix.signFlag_eq_false⟩
  · exact congrArg DivUnit.ph hacc.nrdRun_last

/-- Settles O40: a unit with edges left is busy and shows no result; CORR makes the remainder and the count, and FIX, the last
edge, writes them. -/
theorem nrdDivides : Obligations.NrdDivides := by
  intro s hN hlegal hidle hreset hstart ha hb hb0
  have hacc := State.nrdAccepts hN hlegal hidle hreset hstart ha hb hb0
  refine ⟨fun k hk1 hk => ?_, ⟨_, hacc.run_eq (s.N + 3), rfl, ?_⟩⟩
  · obtain ⟨k, rfl⟩ : ∃ j, k = j + 1 := ⟨k - 1, by omega⟩
    have hleft := hacc.edgesLeft k (by omega)
    have hbusy : (nrdRun (k + 1) s.inputs s.nrd).ph ≠ .idle := by
      rw [hleft.ph_eq_nrdPhase]
      exact nrdPhase_ne_idle (by omega)
    exact ⟨_, hacc.run_eq (k + 1), (DivUnit.outputs_busy _).2 hbusy, hleft.done.trans (decide_eq_false (by omega))⟩
  · have herr := (hacc.edgesLeft (s.N + 1) (by omega)).err
    obtain ⟨hquo, hrem, hcnt⟩ := hacc.corrected.writeResult hN
    dsimp only
    rw [hacc.nrdRun_last]
    exact ⟨rfl, rfl, congrArg ErrCode.code herr, hquo, hrem, hcnt.trans (nrdCount_natAbs _ _)⟩

end Sys2Proof.Machine
end

section
/-! PROOFS about the arithmetic of the operands: the sign correction (rule R163), the shift of the double register (rule R161)
and the division law (rule R162). -/

namespace Sys2Proof.Machine

variable {N : Nat}

/-- Settles O21: the words are `fixSign_eq_ofInt`, and their values `fixSign_toInt`; the two's complement of 0 is 0. -/
theorem signCorrectionOfMagnitude : Obligations.SignCorrectionOfMagnitude := by
  intro N m hN hm
  have hvalue := fixSign_toInt (by omega) m hm
  exact ⟨fixSign_eq_ofInt m true, rfl, hvalue true, hvalue false, BitVec.neg_zero N⟩

/-- The bit that leaves `Q` is the quotient of the doubled `Q` by `2^N`. -/
theorem double_div_two_pow (h : 1 ≤ N) (q : Nat) : 2 * q / 2 ^ N = q / 2 ^ (N - 1) := by
  rw [two_pow_pred h, Nat.mul_div_mul_left _ _ (by decide)]

/-- Settles O22: modulo `2^N` the doubled register is the shifted `Q`, and above that it is the shifted `A`. -/
theorem shiftOfDoubleRegister : Obligations.ShiftOfDoubleRegister := by
  intro N A Q hN
  have hdouble : 2 * (A.toNat * 2 ^ N + Q.toNat) = 2 * Q.toNat + 2 ^ N * (2 * A.toNat) := by ring
  refine ⟨?_, by simp [shiftAcc, bitWord], by simp [shiftQuo]⟩
  rw [show 2 * N + 1 = N + (N + 1) by omega, pow_add, Nat.mod_mul, hdouble, Nat.add_mul_mod_self_left,
    Nat.add_mul_div_left _ _ (Nat.two_pow_pos N), double_div_two_pow (by omega), shiftAcc_toNat (by omega),
    shiftQuo_toNat, Nat.add_comm (Q.toNat / _), Nat.mul_comm (2 ^ N), Nat.add_comm]

/-! ## The division law -/

/-- Rule R71 by absolute value. -/
theorem isOperand_iff_abs_le {v : Int} : IsOperand N v ↔ |v| ≤ 2 ^ (N - 1) - 1 := abs_le.symm

theorem isOperand_of_natAbs_lt {v : Int} (h : v.natAbs < 2 ^ (N - 1)) : IsOperand N v := by
  have hcast : ((2 : Int) ^ (N - 1)) = ((2 ^ (N - 1) : Nat) : Int) := by push_cast; rfl
  rw [isOperand_iff_abs_le, Int.abs_eq_natAbs, hcast]
  omega

/-- Rule R162: the remainder is that of the magnitudes, with the sign of the dividend. -/
theorem remOf_eq {x y : Int} (hy : y ≠ 0) : remOf x y = if x < 0 then -(|x| % |y|) else |x| % |y| := by
  have hsign : xor (xor (decide (x < 0)) (decide (y < 0))) (decide (x < 0)) = decide (y < 0) := by
    rw [Bool.xor_comm, ← Bool.xor_assoc, Bool.xor_self, Bool.false_xor]
  obtain ⟨-, hrem⟩ := quotOf_remOf_of_signs (Dv := x.natAbs) (M := y.natAbs) (by omega)
    (xor (decide (x < 0)) (decide (y < 0))) (decide (x < 0)) x y (eq_signed_natAbs x)
    (by rw [hsign]; exact eq_signed_natAbs y)
  simpa using hrem

theorem abs_remOf {x y : Int} (hy : y ≠ 0) : |remOf x y| = |x| % |y| := by
  have hnonneg := Int.emod_nonneg |x| (abs_ne_zero.2 hy)
  rw [remOf_eq hy]
  split
  · rw [abs_neg, abs_of_nonneg hnonneg]
  · exact abs_of_nonneg hnonneg

theorem abs_quotOf (x y : Int) : |quotOf x y| = |x| / |y| := by
  have hnonneg : 0 ≤ |x| / |y| := Int.ediv_nonneg (abs_nonneg x) (abs_nonneg y)
  unfold quotOf
  split
  · simpa using hnonneg
  · simpa using hnonneg

/-- Settles O25: the remainder is `remOf_eq`, the magnitude of the quotient is `|x| / |y|`, and neither exceeds the
operand that bounds it: `|x|` for the quotient, `|y|` for the remainder. -/
theorem truncatingDivisionLaw : Obligations.TruncatingDivisionLaw := by
  intro N x y hN hx hy hy0
  have hnonneg := Int.emod_nonneg |x| (abs_ne_zero.2 hy0)
  have hrem : |remOf x y| < |y| := by
    rw [abs_remOf hy0]
    exact Int.emod_lt_of_pos _ (abs_pos.2 hy0)
  have hquo : |quotOf x y| ≤ |x| := by
    rw [abs_quotOf]
    exact Int.ediv_le_self _ (abs_nonneg x)
  have hsign : remOf x y = 0 ∨ (remOf x y < 0 ↔ x < 0) := by
    rw [remOf_eq hy0]
    split
    · omega
    · omega
  rw [isOperand_iff_abs_le] at hx hy
  exact ⟨by simp [remOf], hrem, hsign, remOf_eq hy0, hquo, isOperand_iff_abs_le.2 (hquo.trans hx),
    isOperand_iff_abs_le.2 (hrem.le.trans hy)⟩

end Sys2Proof.Machine
end

section
/-! PROOF that every edge keeps a good state good (rules R27, R103, R164 to R166 and R203): what a unit owes in each phase
(`rdInv_of_iter` and its like), and the phase that each row leads to. -/

namespace Sys2Proof.Machine

variable {N : Nat} {count : Nat → Nat → Nat}

/-! ## What the outputs mean after each kind of row -/

/-- Rules R101, R131 and R205: in any phase, what shows neither a result nor an error has nothing to mean. -/
theorem statusOk_of_clear {u : DivUnit N} (hdone : u.doneR = false) (herr : u.errR = .none) : StatusOk count u where
  err_legal := by simp [herr]
  busy_clear _ := ⟨hdone, herr⟩
  err_zero h := absurd herr h
  result h := by simp [hdone] at h

/-- Rule R203: what error entry writes is what an error must show. -/
theorem statusOk_completeWithError {e : ErrCode} (he : e ≠ .none) (hlegal : e ≠ .reserved) {u : DivUnit N}
    (hidle : u.ph = .idle) : StatusOk count (u.completeWithError e) where
  err_legal := hlegal
  busy_clear h := absurd hidle h
  err_zero _ := ⟨rfl, rfl, rfl, rfl⟩
  result _ h := absurd h he

/-- Rules R104, R134 and R166: FIX writes the result of the division of the operands that have these magnitudes and the
latched signs. -/
theorem AtFix.statusOk_writeResult {Dv : Nat} {u : DivUnit N} (h : AtFix Dv u) (hN : 1 ≤ N) (herr : u.errR = .none)
    (hcnt : u.cnt.toNat = count Dv u.M.toNat) : StatusOk count u.writeResult where
  err_legal := by simp [DivUnit.writeResult, herr]
  busy_clear h := absurd rfl h
  err_zero h := absurd herr h
  result _ _ := by
    obtain ⟨x, hx⟩ : ∃ x : Int, x = if u.sr then -(Dv : Int) else Dv := ⟨_, rfl⟩
    obtain ⟨y, hy⟩ : ∃ y : Int, y = if xor u.sq u.sr then -(u.M.toNat : Int) else u.M.toNat := ⟨_, rfl⟩
    have hxabs : x.natAbs = Dv := by rw [hx]; split <;> simp
    have hyabs : y.natAbs = u.M.toNat := by rw [hy]; split <;> simp
    have hdividend := h.dividend_lt
    have hdivisor := h.divisor_lt
    have hpos := h.divisor_pos
    obtain ⟨hquo, hrem⟩ := h.writeResult hN hx hy
    exact ⟨x, y, isOperand_of_natAbs_lt (by omega), isOperand_of_natAbs_lt (by omega), by omega, hquo, hrem,
      by rw [hxabs, hyabs]; exact hcnt⟩

/-! ## What a good unit owes in each phase -/

theorem rdInv_of_iter {Dv k : Nat} {u : DivUnit N} (hph : u.ph = .iter) (hs : StatusOk (fun _ _ => N) u)
    (hi : u.i.toNat = k) (hk : k < N) (hloop : RdLoop Dv k u) : RdInv u where
  status := hs
  phase_legal := by simp [hph]
  iter _ := ⟨hi ▸ hk, Dv, hi ▸ hloop⟩
  fix h := by simp [hph] at h

theorem rdInv_of_fix {Dv : Nat} {u : DivUnit N} (hph : u.ph = .fix) (hs : StatusOk (fun _ _ => N) u)
    (hcnt : u.cnt.toNat = N) (hfix : AtFix Dv u) : RdInv u where
  status := hs
  phase_legal := by simp [hph]
  iter h := by simp [hph] at h
  fix _ := ⟨hcnt, Dv, hfix⟩

theorem nrdInv_of_iter {Dv k : Nat} {u : DivUnit N} (hph : u.ph = .iter) (hs : StatusOk (nrdCount N) u)
    (hi : u.i.toNat = k) (hk : k < N) (hloop : NrdLoop Dv k u) : NrdInv u where
  status := hs
  iter _ := ⟨hi ▸ hk, Dv, hi ▸ hloop⟩
  corr h := by simp [hph] at h
  fix h := by simp [hph] at h

theorem nrdInv_of_corr {Dv : Nat} {u : DivUnit N} (hph : u.ph = .corr) (hs : StatusOk (nrdCount N) u)
    (hloop : NrdLoop Dv N u) : NrdInv u where
  status := hs
  iter h := by simp [hph] at h
  corr _ := ⟨Dv, hloop⟩
  fix h := by simp [hph] at h

theorem nrdInv_of_fix {Dv : Nat} {u : DivUnit N} (hph : u.ph = .fix) (hs : StatusOk (nrdCount N) u)
    (hfix : AtFix Dv u) (hcnt : u.cnt.toNat = nrdCount N Dv u.M.toNat) : NrdInv u where
  status := hs
  iter h := by simp [hph] at h
  corr h := by simp [hph] at h
  fix _ := ⟨Dv, hfix, hcnt⟩

/-! ## Accepting edges -/

theorem DivUnit.accept_of_error {a b : Word N} (h : chk a b ≠ .none) (u : DivUnit N) :
    u.accept a b = u.completeWithError (chk a b) := if_neg h

/-- An accepting edge of an idle unit starts an operation, or leaves the unit idle with an error (rules R201 and R203). -/
theorem DivUnit.accept_cases (a b : Word N) {u : DivUnit N} (hidle : u.ph = .idle) :
    (chk a b = .none ∧ u.accept a b = u.initialise a b) ∨
    ((u.accept a b).ph = .idle ∧ ∀ count, StatusOk count (u.accept a b)) := by
  by_cases hc : chk a b = .none
  · exact .inl ⟨hc, accept_of_valid hc u⟩
  · rw [accept_of_error hc]
    exact .inr ⟨hidle, fun _ => statusOk_completeWithError hc (chk_ne_reserved a b) hidle⟩

theorem rdInv_accept (hN : 1 ≤ N) (a b : Word N) {u : DivUnit N} (hidle : u.ph = .idle) : RdInv (u.accept a b) := by
  obtain ⟨hc, heq⟩ | ⟨hph, hs⟩ := DivUnit.accept_cases a b hidle
  · rw [heq]
    exact rdInv_of_iter rfl (statusOk_of_clear rfl rfl) (by simp [DivUnit.initialise]) hN (loop_start hN hc u).1
  · exact rdInv_of_idle hph (hs _)

theorem nrdInv_accept (hN : 1 ≤ N) (a b : Word N) {u : DivUnit N} (hidle : u.ph = .idle) : NrdInv (u.accept a b) := by
  obtain ⟨hc, heq⟩ | ⟨hph, hs⟩ := DivUnit.accept_cases a b hidle
  · rw [heq]
    exact nrdInv_of_iter rfl (statusOk_of_clear rfl rfl) (by simp [DivUnit.initialise]) hN (loop_start hN hc u).2
  · exact nrdInv_of_idle hph (hs _)

/-! ## Edges of an operation in progress -/

/-- Rules R102, R105 and R164: an iteration that is not the last stays in the loop, and the last leads to FIX. -/
theorem RdInv.restoringIter (hN : 2 ≤ N) {u : DivUnit N} (h : RdInv u) (hph : u.ph = .iter) : RdInv u.restoringIter := by
  obtain ⟨hdone, herr⟩ := h.status.busy_clear (by simp [hph])
  obtain ⟨hi, Dv, hloop⟩ := h.iter hph
  have hnext := hloop.restoringIter (by omega) hi
  have hs : StatusOk (fun _ _ => N) u.restoringIter :=
    statusOk_of_clear (by simpa [restoringIter_eq] using hdone) (by simpa [restoringIter_eq] using herr)
  by_cases hlast : u.i.toNat = N - 1
  · rw [show u.i.toNat + 1 = N by omega] at hnext
    exact rdInv_of_fix (by rw [restoringIter_ph, if_pos hlast]) hs hnext.count hnext.atFix
  · exact rdInv_of_iter (by rw [restoringIter_ph, if_neg hlast, hph]) hs (restoringIter_i hN (by omega)) (by omega) hnext

/-- Rules R132, R135 and R165: an iteration that is not the last stays in the loop, and the last leads to CORR. -/
theorem NrdInv.nonRestoringIter (hN : 2 ≤ N) {u : DivUnit N} (h : NrdInv u) (hph : u.ph = .iter) :
    NrdInv u.nonRestoringIter := by
  obtain ⟨hdone, herr⟩ := h.status.busy_clear (by simp [hph])
  obtain ⟨hi, Dv, hloop⟩ := h.iter hph
  have hnext := hloop.nonRestoringIter (by omega) hi
  have hs : StatusOk (nrdCount N) u.nonRestoringIter :=
    statusOk_of_clear (by simpa [nonRestoringIter_eq] using hdone) (by simpa [nonRestoringIter_eq] using herr)
  by_cases hlast : u.i.toNat = N - 1
  · rw [show u.i.toNat + 1 = N by omega] at hnext
    exact nrdInv_of_corr (by rw [nonRestoringIter_ph, if_pos hlast]) hs hnext
  · exact nrdInv_of_iter (by rw [nonRestoringIter_ph, if_neg hlast, hph]) hs (nonRestoringIter_i hN (by omega)) (by omega)
      hnext

/-- What CORR leaves alone, whether it adds or not (rule R133). -/
theorem DivUnit.correct_keeps (u : DivUnit N) :
    u.correct.ph = .fix ∧ u.correct.M = u.M ∧ u.correct.doneR = u.doneR ∧ u.correct.errR = u.errR := by
  unfold DivUnit.correct
  split
  · exact ⟨rfl, rfl, rfl, rfl⟩
  · exact ⟨rfl, rfl, rfl, rfl⟩

theorem NrdInv.correct (hN : 1 ≤ N) {u : DivUnit N} (h : NrdInv u) (hph : u.ph = .corr) : NrdInv u.correct := by
  obtain ⟨hdone, herr⟩ := h.status.busy_clear (by simp [hph])
  obtain ⟨Dv, hloop⟩ := h.corr hph
  obtain ⟨hfix, hcnt⟩ := hloop.correct hN
  obtain ⟨hexit, hM, hdone', herr'⟩ := u.correct_keeps
  exact nrdInv_of_fix hexit (statusOk_of_clear (hdone'.trans hdone) (herr'.trans herr)) hfix (by rw [hcnt, hM])

theorem RdInv.writeResult (hN : 1 ≤ N) {u : DivUnit N} (h : RdInv u) (hph : u.ph = .fix) : RdInv u.writeResult := by
  obtain ⟨-, herr⟩ := h.status.busy_clear (by simp [hph])
  obtain ⟨hcnt, Dv, hfix⟩ := h.fix hph
  exact rdInv_of_idle rfl (hfix.statusOk_writeResult hN herr hcnt)

theorem NrdInv.writeResult (hN : 1 ≤ N) {u : DivUnit N} (h : NrdInv u) (hph : u.ph = .fix) : NrdInv u.writeResult := by
  obtain ⟨-, herr⟩ := h.status.busy_clear (by simp [hph])
  obtain ⟨Dv, hfix, hcnt⟩ := h.fix hph
  exact nrdInv_of_idle rfl (hfix.statusOk_writeResult hN herr hcnt)

/-! ## Every edge -/

theorem RdInv.rdEdge (hN : 2 ≤ N) {u : DivUnit N} (h : RdInv u) (rst : Bool) (inp : UnitIn N) :
    RdInv (rdEdge rst inp u) := by
  cases rst with
  | true => exact rdInv_of_idle rfl (statusOk_of_clear rfl rfl)
  | false =>
    cases hph : u.ph with
    | idle =>
      rw [rdEdge_idle inp hph]
      split
      · exact rdInv_accept (by omega) _ _ hph
      · exact h
    | iter => rw [rdEdge_iter inp hph]; exact h.restoringIter hN hph
    | corr => exact absurd hph h.phase_legal
    | fix => rw [rdEdge_fix inp hph]; exact h.writeResult (by omega) hph

theorem NrdInv.nrdEdge (hN : 2 ≤ N) {u : DivUnit N} (h : NrdInv u) (rst : Bool) (inp : UnitIn N) :
    NrdInv (nrdEdge rst inp u) := by
  cases rst with
  | true => exact nrdInv_of_idle rfl (statusOk_of_clear rfl rfl)
  | false =>
    cases hph : u.ph with
    | idle =>
      rw [nrdEdge_idle inp hph]
      split
      · exact nrdInv_accept (by omega) _ _ hph
      · exact h
    | iter => rw [nrdEdge_iter inp hph]; exact h.nonRestoringIter hN hph
    | corr => rw [nrdEdge_corr inp hph]; exact h.correct (by omega) hph
    | fix => rw [nrdEdge_fix inp hph]; exact h.writeResult (by omega) hph

/-- Settles O36: a step is one edge of each unit (`step_next`), and an edge keeps its unit good in every phase. -/
theorem everyEdgeKeepsGoodState : Obligations.EveryEdgeKeepsGoodState := by
  intro s t hinv h
  obtain ⟨hN, -, rfl⟩ := step_next h
  exact ⟨hN, hinv.rd.rdEdge hN _ _, hinv.nrd.nrdEdge hN _ _⟩

end Sys2Proof.Machine
end

section
/-! PROOF that no working value of a good state leaves its range (rule R160). -/

namespace Sys2Proof.Machine

variable {N : Nat}

/-- An accumulator below `M` as an unsigned number has that value. -/
theorem acc_toInt_range {A : Acc N} {M : Word N} (h : A.toNat < M.toNat) : 0 ≤ A.toInt ∧ A.toInt ≤ M.toNat - 1 := by
  have hM := M.isLt
  have hA : A.toInt = A.toNat := toInt_of_nonneg (by omega) A (by rw [Nat.add_sub_cancel]; omega)
  omega

theorem RdLoop.acc_range {Dv k : Nat} {u : DivUnit N} (h : RdLoop Dv k u) :
    0 ≤ u.A.toInt ∧ u.A.toInt ≤ u.M.toNat - 1 :=
  acc_toInt_range (h.acc.trans_lt (Nat.mod_lt _ h.divisor_pos))

theorem AtFix.acc_range {Dv : Nat} {u : DivUnit N} (h : AtFix Dv u) : 0 ≤ u.A.toInt ∧ u.A.toInt ≤ u.M.toNat - 1 :=
  acc_toInt_range (h.acc.trans_lt (Nat.mod_lt _ h.divisor_pos))

/-- `M` fits the accumulator twice over, so that one addition or subtraction does not wrap. -/
theorem two_mul_divisor_lt (hN : 1 ≤ N) {M : Word N} (h : M.toNat < 2 ^ (N - 1)) : 2 * (M.toNat : Int) < 2 ^ N := by
  have hp := two_pow_pred hN
  exact_mod_cast (show 2 * M.toNat < 2 ^ N by omega)

/-- Rule R160, the trial subtraction of RD. -/
theorem trialSub_range (hN : 1 ≤ N) {As : Acc N} {M : Word N} (hM : M.toNat < 2 ^ (N - 1)) (hlo : 0 ≤ As.toInt)
    (hhi : As.toInt ≤ 2 * M.toNat - 1) :
    (As - zextAcc M).toInt = As.toInt - M.toNat ∧ -(M.toNat : Int) ≤ (As - zextAcc M).toInt ∧
    (As - zextAcc M).toInt ≤ M.toNat - 1 := by
  have h2 := two_mul_divisor_lt hN hM
  have hsub := accSub_toInt As M (by omega) M.isLt
  exact ⟨hsub, by omega, by omega⟩

/-- Rule R160, the addition or subtraction of NRD: `As` has the sign of `A`, so `M` moves it towards 0. -/
theorem addOrSub_range (hN : 1 ≤ N) {A As : Acc N} {M : Word N} (hM : M.toNat < 2 ^ (N - 1))
    (hsign : signFlag As = signFlag A) (hlo : -(2 * M.toNat : Int) ≤ As.toInt) (hhi : As.toInt ≤ 2 * M.toNat - 1) :
    let An : Acc N := if signFlag A then As + zextAcc M else As - zextAcc M
    An.toInt = (if signFlag A then As.toInt + M.toNat else As.toInt - M.toNat) ∧
    -(M.toNat : Int) ≤ An.toInt ∧ An.toInt ≤ M.toNat - 1 := by
  have h2 := two_mul_divisor_lt hN hM
  rw [← hsign]
  by_cases hneg : signFlag As = true
  · have hAs := (signFlag_iff_toInt As).1 hneg
    have hadd := accAdd_toInt As M (by omega) M.isLt
    simp only [hneg, if_true]
    exact ⟨hadd, by omega, by omega⟩
  · have hAs := mt (signFlag_iff_toInt As).2 hneg
    simp only [hneg]
    exact trialSub_range hN hM (by omega) hhi

/-- Settles O38: the loop invariants give the range of `A`, `signBeforeShiftIsSignAfter` that of `As`, and from there the one
addition or subtraction does not wrap. -/
theorem workingValuesInRange : Obligations.WorkingValuesInRange := by
  intro s hinv
  have hN := hinv.width
  refine ⟨⟨Nat.le_sub_one_of_lt s.rd.Q.isLt, Nat.le_sub_one_of_lt s.nrd.Q.isLt⟩, fun hph => ?_, fun hph => ?_,
    fun hph => ?_, fun hph => ?_, fun hph => ?_⟩
  · obtain ⟨hi, Dv, hloop⟩ := hinv.rd.iter hph
    have hM := hloop.divisor_lt
    have hcnt := hloop.count
    obtain ⟨hlo, hhi⟩ := hloop.acc_range
    obtain ⟨hAs, -, hAshi, -⟩ := signBeforeShiftIsSignAfter s.N s.rd.A s.rd.Q s.rd.M hN (by omega) (by omega) hhi
    have hAslo : 0 ≤ (shiftAcc s.rd.A s.rd.Q).toInt := by omega
    obtain ⟨hD, hDlo, hDhi⟩ := trialSub_range (by omega) hM hAslo hAshi
    exact ⟨hlo, hhi, hAs, hAslo, hAshi, hD, hDlo, hDhi, by omega, by omega⟩
  · obtain ⟨hi, Dv, hloop⟩ := hinv.nrd.iter hph
    have hM := hloop.divisor_lt
    have hcnt := hloop.count
    obtain ⟨hlo, hhi⟩ := hloop.acc_range (by omega)
    obtain ⟨hAs, hAslo, hAshi, hsign⟩ := signBeforeShiftIsSignAfter s.N s.nrd.A s.nrd.Q s.nrd.M hN (by omega) hlo hhi
    obtain ⟨hAn, hAnlo, hAnhi⟩ := addOrSub_range (by omega) hM hsign hAslo hAshi
    exact ⟨hlo, hhi, hAs, hAslo, hAshi, hAn, hAnlo, hAnhi, by omega, by omega⟩
  · obtain ⟨Dv, hloop⟩ := hinv.nrd.corr hph
    obtain ⟨hlo, hhi⟩ := hloop.acc_range (by omega)
    exact ⟨hlo, hhi, hloop.count⟩
  · obtain ⟨hcnt, Dv, hfix⟩ := hinv.rd.fix hph
    obtain ⟨hlo, hhi⟩ := hfix.acc_range
    exact ⟨hlo, hhi, hcnt⟩
  · obtain ⟨Dv, hfix, hcnt⟩ := hinv.nrd.fix hph
    obtain ⟨hlo, hhi⟩ := hfix.acc_range
    exact ⟨hlo, hhi, by rw [hcnt]; exact Nat.sub_le _ _⟩

end Sys2Proof.Machine
end

section
/-! PROOF that the units agree (rule R168): each ends with what the division law says (`State.RdAccepts.result`,
`State.NrdAccepts.result`). -/

namespace Sys2Proof.Machine

variable {N : Nat}

/-- Without a reset in the host's list there is none at any edge: after its end every input is 0 (rule R82). -/
theorem State.noReset_of_inputs {s : State} (h : ∀ e ∈ s.inputs, e.rst = false) (n : Nat) : s.NoReset n := by
  intro j _
  unfold State.edgeAt
  cases hdrop : s.inputs.drop j with
  | nil => rfl
  | cons e rest => exact h e (List.mem_of_mem_drop (hdrop ▸ List.mem_cons_self))

/-- Error entry shows the same in every idle unit (rule R203). -/
theorem DivUnit.completeWithError_outputs (e : ErrCode) {u : DivUnit N} (h : u.ph = .idle) :
    (u.completeWithError e).outputs = ⟨false, true, e.code, 0, 0, 0⟩ := by
  simp [completeWithError, outputs, h]

/-- Rules R106 and R239: what RD shows when its operation ends. -/
theorem State.RdAccepts.result {x y : Int} {s : State} (h : s.RdAccepts x y) :
    (rdRun (s.N + 2) s.inputs s.rd).EdgesLeft .rd 0 ∧
    (rdRun (s.N + 2) s.inputs s.rd).quoR.toInt = quotOf x y ∧
    (rdRun (s.N + 2) s.inputs s.rd).remR.toInt = remOf x y := by
  obtain ⟨hleft, hquo, hrem, -⟩ := (h.operation s.N le_rfl).writeResult h.width
  rw [h.rdRun_last]
  exact ⟨hleft, hquo, hrem⟩

/-- Rules R136 and R239: what NRD shows when its operation ends. -/
theorem State.NrdAccepts.result {x y : Int} {s : State} (h : s.NrdAccepts x y) :
    (nrdRun (s.N + 3) s.inputs s.nrd).EdgesLeft .nrd 0 ∧
    (nrdRun (s.N + 3) s.inputs s.nrd).quoR.toInt = quotOf x y ∧
    (nrdRun (s.N + 3) s.inputs s.nrd).remR.toInt = remOf x y := by
  have hleft := h.edgesLeft (s.N + 2) le_rfl
  rw [Nat.sub_self] at hleft
  obtain ⟨hquo, hrem, -⟩ := h.corrected.writeResult h.width
  refine ⟨hleft, ?_⟩
  rw [h.nrdRun_last]
  exact ⟨hquo, hrem⟩

/-- Settles O43: with an error both units show it at once; without one each ends with the quotient and the remainder of the
same division, and a word is known by its value. -/
theorem unitsAgree : Obligations.UnitsAgree := by
  intro N rd nrd op rest hN hrd hnrd hstart hreset
  have hlegal : rd.ph ≠ .corr := by simp [hrd]
  have hrun := fun k => run_eq hN k rd nrd (⟨false, op, op⟩ :: rest) hlegal
  refine ⟨fun hc => ?_, fun hc => ?_⟩
  · have hrdEdge : rdEdge false op rd = rd.completeWithError (chk op.dividend op.divisor) := by
      rw [rdEdge_idle op hrd, if_pos hstart, DivUnit.accept_of_error hc]
    have hnrdEdge : nrdEdge false op nrd = nrd.completeWithError (chk op.dividend op.divisor) := by
      rw [nrdEdge_idle op hnrd, if_pos hstart, DivUnit.accept_of_error hc]
    refine ⟨rdEdge false op rd, nrdEdge false op nrd, hrun 1, ?_, ?_⟩
    · rw [hrdEdge, hnrdEdge, DivUnit.completeWithError_outputs _ hrd, DivUnit.completeWithError_outputs _ hnrd]
    · rw [hrdEdge, DivUnit.completeWithError_outputs _ hrd]
  · have hnone : ∀ n, State.NoReset ⟨N, rd, nrd, ⟨false, op, op⟩ :: rest⟩ n :=
      State.noReset_of_inputs (by simpa using hreset)
    have hrdAcc : State.RdAccepts op.dividend.toInt op.divisor.toInt ⟨N, rd, nrd, ⟨false, op, op⟩ :: rest⟩ :=
      ⟨hN, hrd, hnone _, hstart, rfl, rfl, hc⟩
    have hnrdAcc : State.NrdAccepts op.dividend.toInt op.divisor.toInt ⟨N, rd, nrd, ⟨false, op, op⟩ :: rest⟩ :=
      ⟨hN, hlegal, hnrd, hnone _, hstart, rfl, rfl, hc⟩
    obtain ⟨hrdEnd, hrdQuo, hrdRem⟩ := hrdAcc.result
    obtain ⟨hnrdEnd, hnrdQuo, hnrdRem⟩ := hnrdAcc.result
    exact ⟨_, _, _, _, hrun (N + 2), hrun (N + 3), hrdEnd.done, hnrdEnd.done,
      congrArg ErrCode.code (hrdEnd.err.trans hnrdEnd.err.symm), BitVec.eq_of_toInt_eq (hrdQuo.trans hnrdQuo.symm),
      BitVec.eq_of_toInt_eq (hrdRem.trans hnrdRem.symm)⟩

end Sys2Proof.Machine
end

section
/-! PROOF of what an accepting edge with an error writes (rules R201 to R203): what the check answers, by the values of the
operands, and error entry as the effect of both START rows. -/

namespace Sys2Proof.Machine

variable {N : Nat}

/-- Rule R71: `MINW` is known by its value. -/
theorem toInt_eq_neg_two_pow_iff (h : 1 ≤ N) (w : Word N) : w.toInt = -2 ^ (N - 1) ↔ w = minw N := by
  rw [← minw_toInt h, BitVec.toInt_inj]

/-- Rule R202: a zero divisor comes first, whatever the dividend. -/
theorem chk_of_divisor_zero (a : Word N) {b : Word N} (hb : b.toInt = 0) : chk a b = .divByZero :=
  if_pos ((toInt_eq_zero_iff b).1 hb)

/-- Rules R201 and R202: `MINW` is reported only where the divisor is not zero. -/
theorem chk_of_minw (h : 1 ≤ N) {a b : Word N} (hb : b.toInt ≠ 0)
    (hw : a.toInt = -2 ^ (N - 1) ∨ b.toInt = -2 ^ (N - 1)) : chk a b = .widthOverflow := by
  rw [toInt_eq_neg_two_pow_iff h, toInt_eq_neg_two_pow_iff h] at hw
  exact (if_neg (mt (toInt_eq_zero_iff b).2 hb)).trans (if_pos hw)

/-- Rules R101, R131 and R203: on an error each START row is error entry of its own unit. -/
theorem exec_start_of_error {s : State} {a b : Word s.N} {e : ErrCode} (hc : chk a b = e) (he : e ≠ .none) :
    exec (.rdStart a.toNat b.toNat) s = .next (s.setRd (s.rd.completeWithError e)) ∧
    exec (.nrdStart a.toNat b.toNat) s = .next (s.setNrd (s.nrd.completeWithError e)) := by
  subst hc
  rw [exec_rdStart, exec_nrdStart, DivUnit.accept_of_error he, DivUnit.accept_of_error he]
  exact ⟨rfl, rfl⟩

/-- Settles O5: `chk_of_divisor_zero` and `chk_of_minw` name the error, and `completeWithError` writes those registers. -/
theorem startRowsReportErrors : Obligations.StartRowsReportErrors := by
  intro s a b hN
  refine ⟨fun hb => ?_, fun hb hw => ?_⟩
  · exact exec_start_of_error (chk_of_divisor_zero a hb) (by decide)
  · exact exec_start_of_error (chk_of_minw (by omega) hb hw) (by decide)

end Sys2Proof.Machine
end

section
/-! PROOFS about reset edges, ignored requests and the end of an operation (rules R231, R235 and R243). -/

namespace Sys2Proof.Machine

variable {N : Nat}

/-- Everything a step can do, where the next edge is written out. -/
theorem step_cons (rd nrd : DivUnit N) (e : Edge N) (rest : List (Edge N)) :
    step ⟨N, rd, nrd, e :: rest⟩ =
      if N < 2 then .refused .widthBelowTwo
      else if e.rst = false ∧ rd.ph = .corr then .refused .rdReservedPhase
      else .next ⟨N, rdEdge e.rst e.rd rd, nrdEdge e.rst e.nrd nrd, rest⟩ :=
  step_eq _

/-! ## Reset edges -/

/-- Rules R30 and R31: what a unit shows after a reset edge, whatever was drawn. -/
theorem DivUnit.hardReset_outputs (id : UnitId) (u : DivUnit N) :
    (u.hardReset id).outputs = ⟨false, false, 0b00#2, 0, 0, 0⟩ := rfl

/-- Settles O31: no reset edge is refused at a legal width, and it is `hardReset` of both units. -/
theorem resetEdgeAbandonsEverything : Obligations.ResetEdgeAbandonsEverything := by
  intro N rd nrd e rest hN hrst
  refine ⟨rd.hardReset .rd, nrd.hardReset .nrd, ?_, rd.hardReset_outputs .rd, nrd.hardReset_outputs .nrd⟩
  rw [step_cons, hrst, if_neg (by omega), if_neg (by simp)]
  rfl

/-! ## Ignored requests -/

/-- Rule R235 for RD: only the idle phase reads the inputs, and operands only at `start`. -/
theorem rdEdge_congr_of_not_accepting {u : DivUnit N} {a a' : UnitIn N}
    (h : u.ph ≠ .idle ∨ (a.start = false ∧ a'.start = false)) : rdEdge false a u = rdEdge false a' u := by
  cases hph : u.ph with
  | idle =>
    obtain ⟨hs, hs'⟩ := h.resolve_left (not_not.2 hph)
    simp [rdEdge_idle _ hph, hs, hs']
  | iter => rw [rdEdge_iter a hph, rdEdge_iter a' hph]
  | corr => simp [rdEdge, hph]
  | fix => rw [rdEdge_fix a hph, rdEdge_fix a' hph]

/-- Rule R235 for NRD. -/
theorem nrdEdge_congr_of_not_accepting {u : DivUnit N} {a a' : UnitIn N}
    (h : u.ph ≠ .idle ∨ (a.start = false ∧ a'.start = false)) : nrdEdge false a u = nrdEdge false a' u := by
  cases hph : u.ph with
  | idle =>
    obtain ⟨hs, hs'⟩ := h.resolve_left (not_not.2 hph)
    simp [nrdEdge_idle _ hph, hs, hs']
  | iter => rw [nrdEdge_iter a hph, nrdEdge_iter a' hph]
  | corr => rw [nrdEdge_corr a hph, nrdEdge_corr a' hph]
  | fix => rw [nrdEdge_fix a hph, nrdEdge_fix a' hph]

/-- Settles O32: a step reads an edge's port inputs only through the two units' edges; whether it is refused depends on none of
them. -/
theorem inputsMatterOnlyAtAcceptingEdge : Obligations.InputsMatterOnlyAtAcceptingEdge := by
  intro N rd nrd a a' b b' rest hrd hnrd
  rw [step_cons, step_cons, rdEdge_congr_of_not_accepting hrd, nrdEdge_congr_of_not_accepting hnrd]

/-! ## The end of an operation -/

/-- A unit with no edge left is idle and shows its result. -/
theorem DivUnit.EdgesLeft.outputs {id : UnitId} {u : DivUnit N} (h : u.EdgesLeft id 0) :
    u.outputs.busy = false ∧ u.outputs.done = true ∧ u.outputs.err = 0b00#2 := by
  have hph : u.ph = .idle := by
    obtain ⟨hph, -⟩ | ⟨-, hm⟩ | ⟨-, -, hm⟩ | ⟨-, hi, hm⟩ := h.phase
    · exact hph
    · cases hm
    · cases hm
    · omega
  exact ⟨decide_eq_false (not_not.2 hph), h.done, congrArg ErrCode.code h.err⟩

/-- Rule R243 for RD: each of the edges to come takes one from the edges left. -/
theorem State.NoReset.rdRun_edgesLeft {s : State} {m : Nat} (hN : 2 ≤ s.N) (h : s.NoReset m) (hleft : s.rd.EdgesLeft .rd m)
    (k : Nat) (hk : k ≤ m) : (rdRun k s.inputs s.rd).EdgesLeft .rd (m - k) := by
  induction k with
  | zero => exact hleft
  | succ k ih =>
    have hprev := ih (by omega)
    rw [show m - k = m - (k + 1) + 1 by omega] at hprev
    rw [h.rdRun_succ hk]
    exact hprev.rdEdge hN _

/-- Rule R243 for NRD. -/
theorem State.NoReset.nrdRun_edgesLeft {s : State} {m : Nat} (hN : 2 ≤ s.N) (h : s.NoReset m)
    (hleft : s.nrd.EdgesLeft .nrd m) (k : Nat) (hk : k ≤ m) : (nrdRun k s.inputs s.nrd).EdgesLeft .nrd (m - k) := by
  induction k with
  | zero => exact hleft
  | succ k ih =>
    have hprev := ih (by omega)
    rw [show m - k = m - (k + 1) + 1 by omega] at hprev
    rw [h.nrdRun_succ hk]
    exact hprev.nrdEdge hN _

/-- Settles O46: a busy unit of a good state has at most `N + 1` (`N + 2`) edges left, and the run of just these leaves none. -/
theorem busyUnitsFinish : Obligations.BusyUnitsFinish := by
  intro s hinv
  have hrun := fun k => run_eq hinv.width k s.rd s.nrd s.inputs hinv.rd.phase_legal
  constructor
  · intro hbusy hreset
    obtain ⟨m, -, hle, hleft⟩ := hinv.rd.exists_edgesLeft hbusy
    have hreset' : s.NoReset m := fun j hj => hreset j (by omega)
    have hend := hreset'.rdRun_edgesLeft hinv.width hleft m le_rfl
    rw [Nat.sub_self] at hend
    exact ⟨m, hle, _, hrun m, hend.outputs⟩
  · intro hbusy hreset
    obtain ⟨m, -, hle, hleft⟩ := hinv.nrd.exists_edgesLeft hbusy
    have hreset' : s.NoReset m := fun j hj => hreset j (by omega)
    have hend := hreset'.nrdRun_edgesLeft hinv.width hleft m le_rfl
    rw [Nat.sub_self] at hend
    exact ⟨m, hle, _, hrun m, hend.outputs⟩

end Sys2Proof.Machine
end
